-- ==== Sys2Proof/Word.lean ====
section
/-! DEFINITION. The fixed widths of the block (spec/00_scope.md R9): wire bytes, flash words, flash addresses. -/

namespace Sys2Proof

/-- A wire byte, a buffer byte, a command code (R9). -/
abbrev Byte := BitVec 8

/-- A 32-bit flash word as it travels on the wire and on the flash port (R9, R73). -/
abbrev Word := BitVec 32

/-- A 32-bit unsigned flash address (R9, R71). -/
abbrev Addr := BitVec 32

end Sys2Proof
end

