-- ==== Sys2Proof/Config.lean ====
section
/-! DEFINITION. The configuration record of spec/00_scope.md R7 (the block's read-only control registers,
10_state.md R39), its legality (92_eei_decisions.md D28), and the one free value of the model. -/

namespace Sys2Proof

/-- `START_MARKER` (R7, R100), fixed. -/
def startMarkerByte : Byte := 0xF7#8

/-- `END_MARKER` (R7, R100), fixed. -/
def endMarkerByte : Byte := 0x7F#8

/-- `ESCAPE_MARKER` (R7, R100), fixed. -/
def escapeMarkerByte : Byte := 0xF6#8

/-- `ESCAPE_XOR` (R7), fixed. -/
def escapeXor : Byte := 0x20#8

/-- `ADDR_STEP` (R7, R72): address units per 32-bit word. -/
def addrStep : Nat := 2

/-- The open fields of `Cfg` (R7). Sizes are counts of 32-bit words (D6); D28 (6) bounds them to 16 bits. -/
structure Cfg where
  /-- `MAX_PROG_SIZE`, in words. -/
  maxProgSize : Nat
  /-- `ROW_SIZE`, in words. -/
  rowSize : Nat
  /-- `PAGE_SIZE`, in words. -/
  pageSize : Nat
  /-- `PROG_LEN`; its unit stays open (U15). -/
  progLen : Word
  /-- `BOOT_BASE`, first address of the boot region. -/
  bootBase : Addr
  /-- `BOOT_END`, first address after the boot region. -/
  bootEnd : Addr
  /-- `APP_BASE`; no rule reads it (N22). -/
  appBase : Addr
  /-- `APP_END`; no rule reads it (N22). -/
  appEnd : Addr
  /-- `IVT_BASE` (D10). -/
  ivtBase : Addr
  /-- `APP_START_ADDR` (D7), the target of every jump. -/
  appStartAddr : Addr
  /-- `J0` of `JUMP_PAIR` (D9). -/
  jump0 : Word
  /-- `J1` of `JUMP_PAIR` (D9). -/
  jump1 : Word
  /-- `PLATFORM_STRING` (D5). -/
  platformString : List Byte
  /-- `VERSION_STRING` (D5). -/
  versionString : List Byte
deriving DecidableEq, Repr

/-- `CAP`, the capacity of the parse buffer in bytes (R7, R34). -/
def Cfg.cap (c : Cfg) : Nat := c.maxProgSize * 4 + 16

/-- A legal configuration (D28, clauses 1 to 6 in order; R8, R40). -/
abbrev Cfg.Legal (c : Cfg) : Prop :=
  1 ≤ c.rowSize
  ∧ (2 ≤ c.maxProgSize ∧ c.rowSize ≤ c.maxProgSize ∧ c.maxProgSize % c.rowSize = 0)
  ∧ 4 + 4 * c.maxProgSize ≤ 65535
  ∧ (c.platformString.length ≤ 65535 ∧ c.versionString.length ≤ 65535)
  ∧ (c.bootBase ≤ c.bootEnd ∧ c.appBase ≤ c.appEnd)
  ∧ (c.rowSize < 65536 ∧ c.pageSize < 65536 ∧ c.maxProgSize < 65536)

/-- Configuration EX of 95_test_vectors.md §1.
DESIGN CHOICE (log 1), unsafe if a claim leans on it: the spec leaves every field open and `State.reset`
needs one value; statements quantify over `State.cfg` instead. -/
def Config.configured : Cfg where
  maxProgSize := 8
  rowSize := 4
  pageSize := 8
  progLen := 0x2000#32
  bootBase := 0x0400#32
  bootEnd := 0x0800#32
  appBase := 0x0800#32
  appEnd := 0x2000#32
  ivtBase := 0x0200#32
  appStartAddr := 0x0800#32
  jump0 := 0x00040400#32
  jump1 := 0x00000000#32
  platformString := [0x45#8, 0x58#8]
  versionString := [0x31#8]

/-- The word the flash agent answers to the n-th `read_word` of a run when no flash model is supplied:
"any 32-bit value per read, independent of earlier writes" (D40, U2). A free value: it has no body.
DESIGN CHOICE (log 5), safe. -/
opaque Config.flashOracle : Nat → Word

end Sys2Proof
end

