-- ==== Sys2Proof/Syntax.lean ====
section
/-! DEFINITION. The instructions: one constructor for each row of spec/opcode_table.json. -/

namespace Sys2Proof

/-- The 14 command codes and the unknown ones (format CMD, 30_encoding.md R108, R109), and the six classes of
raw wire bytes (format WIRE, 42_receiver.md R180). A command's operands are those of R110; the bytes a
command ignores (the length field, R105, and arguments past `REQ`, R110) are no operands. -/
inductive Instr where
  /-- READ_PLATFORM, 0x00 (R216). -/
  | readPlatform
  /-- READ_VERSION, 0x01 (R217). -/
  | readVersion
  /-- READ_ROW_LEN, 0x02 (R218). -/
  | readRowLen
  /-- READ_PAGE_LEN, 0x03 (R219). -/
  | readPageLen
  /-- READ_PROG_LEN, 0x04 (R220). -/
  | readProgLen
  /-- READ_MAX_PROG_SIZE, 0x05 (R221). -/
  | readMaxProgSize
  /-- READ_APP_START_ADDR, 0x06 (R222). -/
  | readAppStartAddr
  /-- READ_BOOT_START_ADDR, 0x07 (R223). -/
  | readBootStartAddr
  /-- ERASE_PAGE, 0x10 (R244). -/
  | erasePage (a : Addr)
  /-- READ_ADDR, 0x20 (R245). -/
  | readAddr (a : Addr)
  /-- READ_MAX, 0x21 (R246). -/
  | readMax (a : Addr)
  /-- WRITE_ROW, 0x30 (R247): the address and `ROW_SIZE` words. -/
  | writeRow (a : Addr) (ws : List Word)
  /-- WRITE_MAX_PROG_SIZE, 0x31 (R248): the address and `MAX_PROG_SIZE` words. -/
  | writeMaxProgSize (a : Addr) (ws : List Word)
  /-- START_APP, 0x40 (R249). -/
  | startApp
  /-- UNKNOWN, the 242 other codes (R109, R214). -/
  | unknown (code : Byte)
  /-- START_MARKER in WAIT_FOR_START (R181). -/
  | startMarker
  /-- NOISE, any other byte in WAIT_FOR_START (R181). -/
  | noise (b : Byte)
  /-- ESCAPE_MARKER in READ_VERBATIM (R182). -/
  | escapeMarker
  /-- END_MARKER in READ_VERBATIM (R183). -/
  | endMarker
  /-- DATA, any other byte in READ_VERBATIM (R184). -/
  | data (b : Byte)
  /-- ESCAPED_BYTE, any raw byte in READ_ESCAPED (R185). -/
  | escapedByte (b : Byte)
deriving DecidableEq, Repr

end Sys2Proof
end

