-- ==== Sys2Proof/WellFormed.lean ====
section
/-! DEFINITION. Which terms of `Instr` an encoding can stand for (30_encoding.md R108 to R110, 42_receiver.md R180). -/

namespace Sys2Proof

/-- The 14 assigned command codes (R108). -/
def commandCodes : List Byte :=
  [0x00#8, 0x01#8, 0x02#8, 0x03#8, 0x04#8, 0x05#8, 0x06#8, 0x07#8] ++
  [0x10#8, 0x20#8, 0x21#8, 0x30#8, 0x31#8, 0x40#8]

/-- Under configuration `c`: WRITE_ROW carries `ROW_SIZE` words and WRITE_MAX_PROG_SIZE `MAX_PROG_SIZE` words
(R110); an unknown code is none of the 14 (R109); a wire byte is in its class (R180, R181, R184). -/
def Instr.wellFormed (c : Cfg) : Instr → Bool
  | .readPlatform | .readVersion | .readRowLen | .readPageLen | .readProgLen => true
  | .readMaxProgSize | .readAppStartAddr | .readBootStartAddr => true
  | .erasePage _ | .readAddr _ | .readMax _ => true
  | .writeRow _ ws => ws.length == c.rowSize
  | .writeMaxProgSize _ ws => ws.length == c.maxProgSize
  | .startApp => true
  | .unknown code => !(commandCodes.contains code)
  | .startMarker => true
  | .noise b => b != startMarkerByte
  | .escapeMarker | .endMarker => true
  | .data b => b != escapeMarkerByte && b != endMarkerByte
  | .escapedByte _ => true

end Sys2Proof
end

