-- ==== Sys2Proof/Decode.lean ====
section
/-! DEFINITION. Byte order, escaping, the checksum of a byte sequence, the decoder (total, rejecting by name) and,
after it, the encoder (spec/00_scope.md R11, 30_encoding.md, 40_checksum.md R142, 42_receiver.md R180,
43_dispatch_info.md R210 to R214). -/

namespace Sys2Proof

/-! ### Little-endian fields (R11, R74, R75) -/

/-- `LE16(s, k)` (R11). -/
def le16 (s : List Byte) (k : Nat) : BitVec 16 := s.getD (k + 1) 0#8 ++ s.getD k 0#8

/-- `LE32(s, k)` (R11). -/
def le32 (s : List Byte) (k : Nat) : Word :=
  s.getD (k + 3) 0#8 ++ s.getD (k + 2) 0#8 ++ s.getD (k + 1) 0#8 ++ s.getD k 0#8

/-- `bytes16(v)` (R11). -/
def bytes16 (v : BitVec 16) : List Byte := [v.extractLsb' 0 8, v.extractLsb' 8 8]

/-- `bytes32(v)` (R11). -/
def bytes32 (v : Word) : List Byte :=
  [v.extractLsb' 0 8, v.extractLsb' 8 8, v.extractLsb' 16 8, v.extractLsb' 24 8]

/-- The words `w_k = LE32(A, 4 + 4k)`, `0 <= k < n`, of a write command's arguments (R110). -/
def argWords (A : List Byte) (n : Nat) : List Word := (List.range n).map fun k => le32 A (4 + 4 * k)

/-- The bytes of a sequence of words, each little-endian (R74, R112). -/
def wordBytes (ws : List Word) : List Byte := ws.flatMap bytes32

/-! ### Checksum of a sequence (R142) -/

/-- The loop of `Compute` from the local sums `c1`, `c2`: additions mod 256, `c2` taking the new `c1` (R142). -/
def computeFrom (c1 c2 : Byte) : List Byte → BitVec 16
  | [] => c2 ++ c1
  | b :: s => computeFrom (c1 + b) (c2 + (c1 + b)) s

/-- `Compute(s, n)`: the Fletcher-style checksum of the first `n` bytes of `s` (R142). -/
def compute (s : List Byte) (n : Nat) : BitVec 16 := computeFrom 0#8 0#8 (s.take n)

/-! ### Escaping and frames (R101, R102, R106) -/

/-- The three values that are escaped on the wire (R102). -/
def isMarker (b : Byte) : Bool := b == startMarkerByte || b == endMarkerByte || b == escapeMarkerByte

/-- `Esc(b)` (R102). -/
def esc (b : Byte) : List Byte := if isMarker b then [escapeMarkerByte, b ^^^ escapeXor] else [b]

/-- The logical bytes `[LEN_LO, LEN_HI, CMD] ++ DATA` of a frame, the length being that of `DATA` (R101, R105). -/
def logicalBody (cmd : Byte) (data : List Byte) : List Byte :=
  bytes16 (BitVec.ofNat 16 data.length) ++ [cmd] ++ data

/-- A logical body followed by its checksum, low byte first (R101, R106). -/
def withChecksum (body : List Byte) : List Byte := body ++ bytes16 (compute body body.length)

/-- The raw frame whose logical bytes before the checksum are `body` (R101, R115): raw markers around the escaped
body and checksum. -/
def frameOfBody (body : List Byte) : List Byte :=
  [startMarkerByte] ++ (withChecksum body).flatMap esc ++ [endMarkerByte]

/-- The raw frame of a command byte and its data (R101). -/
def rawFrame (cmd : Byte) (data : List Byte) : List Byte := frameOfBody (logicalBody cmd data)

/-! ### Decoder -/

/-- The parser states of the receiver (10_state.md R32). -/
inductive PState where
  | waitForStart
  | readVerbatim
  | readEscaped
  | endOfMessage
deriving DecidableEq, Repr

/-- The spec's own binary encoding of `pstate` (R32, D29). -/
def PState.toBits : PState → BitVec 2
  | .waitForStart => 0#2
  | .readVerbatim => 1#2
  | .readEscaped => 2#2
  | .endOfMessage => 3#2

/-- What selects the meaning of bytes: a raw byte's class is settled by `pstate` (R100, R180), a command by the
verified payload it stands in (R210). -/
inductive Context where
  /-- One raw byte taken in parser state `p`. -/
  | wire (p : PState)
  /-- A verified payload `[length_lo, length_hi, command, arg_bytes...]`. -/
  | payload
deriving DecidableEq, Repr

/-- Why bytes decode to no instruction. -/
inductive Reject where
  /-- No byte at all. -/
  | noByte
  /-- `pstate = END_OF_MESSAGE`, which never holds when a byte step begins (R180). -/
  | endOfMessage
  /-- A verified payload of `n < 3` bytes carries no command byte (R211). -/
  | noCommand (n : Nat)
  /-- A known code with fewer than `REQ(code)` argument bytes (R213). -/
  | shortArgs (code : Byte) (n : Nat)
deriving DecidableEq, Repr

/-- The commands a verified payload can carry: the CMD rows of the table with their operands (R108 to R110). -/
inductive Command where
  | readPlatform
  | readVersion
  | readRowLen
  | readPageLen
  | readProgLen
  | readMaxProgSize
  | readAppStartAddr
  | readBootStartAddr
  | erasePage (a : Addr)
  | readAddr (a : Addr)
  | readMax (a : Addr)
  | writeRow (a : Addr) (ws : List Word)
  | writeMaxProgSize (a : Addr) (ws : List Word)
  | startApp
  | unknown (code : Byte)
deriving DecidableEq, Repr

/-- A command as the instruction it is. -/
def Command.toInstr : Command → Instr
  | .readPlatform => .readPlatform
  | .readVersion => .readVersion
  | .readRowLen => .readRowLen
  | .readPageLen => .readPageLen
  | .readProgLen => .readProgLen
  | .readMaxProgSize => .readMaxProgSize
  | .readAppStartAddr => .readAppStartAddr
  | .readBootStartAddr => .readBootStartAddr
  | .erasePage a => .erasePage a
  | .readAddr a => .readAddr a
  | .readMax a => .readMax a
  | .writeRow a ws => .writeRow a ws
  | .writeMaxProgSize a ws => .writeMaxProgSize a ws
  | .startApp => .startApp
  | .unknown code => .unknown code

/-- `REQ(code)`: the least number of argument bytes (R110, D14). -/
def req (c : Cfg) (code : Byte) : Nat :=
  match code with
  | 0x10#8 => 4
  | 0x20#8 => 4
  | 0x21#8 => 4
  | 0x30#8 => 4 + 4 * c.rowSize
  | 0x31#8 => 4 + 4 * c.maxProgSize
  | _ => 0

/-- The command of code `code` with arguments `A` (R108, R110); every code outside the map is unknown (R109). -/
def commandOf (c : Cfg) (code : Byte) (A : List Byte) : Command :=
  match code with
  | 0x00#8 => .readPlatform
  | 0x01#8 => .readVersion
  | 0x02#8 => .readRowLen
  | 0x03#8 => .readPageLen
  | 0x04#8 => .readProgLen
  | 0x05#8 => .readMaxProgSize
  | 0x06#8 => .readAppStartAddr
  | 0x07#8 => .readBootStartAddr
  | 0x10#8 => .erasePage (le32 A 0)
  | 0x20#8 => .readAddr (le32 A 0)
  | 0x21#8 => .readMax (le32 A 0)
  | 0x30#8 => .writeRow (le32 A 0) (argWords A c.rowSize)
  | 0x31#8 => .writeMaxProgSize (le32 A 0) (argWords A c.maxProgSize)
  | 0x40#8 => .startApp
  | _ => .unknown code

/-- `Dispatch`'s selection of a command from the verified payload `P` (R210 to R214), causes in the order
E8, E5, E6 (R304). The length field `P[0..2)` is not read (R105, R212). -/
def decodePayload (c : Cfg) (P : List Byte) : Except Reject Command :=
  if P.length < 3 then .error (.noCommand P.length)
  else
    if !(commandCodes.contains (P.getD 2 0#8)) then .ok (.unknown (P.getD 2 0#8))
    else
      if (P.drop 3).length < req c (P.getD 2 0#8) then .error (.shortArgs (P.getD 2 0#8) (P.drop 3).length)
      else .ok (commandOf c (P.getD 2 0#8) (P.drop 3))

/-- The class of the raw byte `b` taken in state `p` (R180 to R185). -/
def decodeWire (p : PState) (b : Byte) : Except Reject Instr :=
  match p with
  | .waitForStart => if b == startMarkerByte then .ok .startMarker else .ok (.noise b)
  | .readVerbatim =>
    if b == escapeMarkerByte then .ok .escapeMarker
    else if b == endMarkerByte then .ok .endMarker
    else .ok (.data b)
  | .readEscaped => .ok (.escapedByte b)
  | .endOfMessage => .error .endOfMessage

/-- The decoder: total on any bytes. In a wire context it reads the first byte, in a payload context all. -/
def decode (c : Cfg) (ctx : Context) (bytes : List Byte) : Except Reject Instr :=
  match ctx with
  | .wire p =>
    match bytes with
    | [] => .error .noByte
    | b :: _ => decodeWire p b
  | .payload => (decodePayload c bytes).map Command.toInstr

/-! ### Encoder (R101, R105, R108, R110, R115) -/

/-- The context an instruction is decoded in. -/
def Instr.context : Instr → Context
  | .readPlatform | .readVersion | .readRowLen | .readPageLen | .readProgLen => .payload
  | .readMaxProgSize | .readAppStartAddr | .readBootStartAddr => .payload
  | .erasePage _ | .readAddr _ | .readMax _ => .payload
  | .writeRow _ _ | .writeMaxProgSize _ _ => .payload
  | .startApp | .unknown _ => .payload
  | .startMarker | .noise _ => .wire .waitForStart
  | .escapeMarker | .endMarker | .data _ => .wire .readVerbatim
  | .escapedByte _ => .wire .readEscaped

/-- The bytes of an instruction: for a command its verified payload with the length field equal to `|A|` (R105,
R115), for a wire class its one raw byte. -/
def encode : Instr → List Byte
  | .readPlatform => logicalBody 0x00#8 []
  | .readVersion => logicalBody 0x01#8 []
  | .readRowLen => logicalBody 0x02#8 []
  | .readPageLen => logicalBody 0x03#8 []
  | .readProgLen => logicalBody 0x04#8 []
  | .readMaxProgSize => logicalBody 0x05#8 []
  | .readAppStartAddr => logicalBody 0x06#8 []
  | .readBootStartAddr => logicalBody 0x07#8 []
  | .erasePage a => logicalBody 0x10#8 (bytes32 a)
  | .readAddr a => logicalBody 0x20#8 (bytes32 a)
  | .readMax a => logicalBody 0x21#8 (bytes32 a)
  | .writeRow a ws => logicalBody 0x30#8 (bytes32 a ++ wordBytes ws)
  | .writeMaxProgSize a ws => logicalBody 0x31#8 (bytes32 a ++ wordBytes ws)
  | .startApp => logicalBody 0x40#8 []
  | .unknown code => logicalBody code []
  | .startMarker => [startMarkerByte]
  | .noise b => [b]
  | .escapeMarker => [escapeMarkerByte]
  | .endMarker => [endMarkerByte]
  | .data b => [b]
  | .escapedByte b => [b]

/-! ### The opcode table's words (log 11) -/

/-- The context in which a table word is read: the three marker values are the wire rows START_MARKER,
ESCAPE_MARKER and END_MARKER, every other first byte is a command byte. DESIGN CHOICE (log 11): the table's CMD
and WIRE rows number the same eight bits. -/
def tableContext (b : Byte) : Context :=
  if b == startMarkerByte then .wire .waitForStart
  else if b == escapeMarkerByte then .wire .readVerbatim
  else if b == endMarkerByte then .wire .readVerbatim
  else .payload

/-- The `nbits / 8` bytes of a table word, the first one in bits 7..0. -/
def tableBytes (nbits w : Nat) : List Byte :=
  (List.range (nbits / 8)).map fun k => BitVec.ofNat 8 (w >>> (8 * k))

/-- The verified payload of a table word whose first byte is a command byte: a zero length field (never read,
R105), the word's bytes, then zero argument bytes up to the longest `REQ` (R110). -/
def tablePayload (c : Cfg) (bytes : List Byte) : List Byte :=
  [0#8, 0#8] ++ bytes ++ List.replicate (5 + 4 * c.maxProgSize - bytes.length) 0#8

/-- The instruction the decoder reads from a table word, under the configuration of `State.reset`. -/
def decodeTableWord (nbits w : Nat) : Option Instr :=
  match tableBytes nbits w with
  | [] => none
  | b :: bs =>
    match tableContext b with
    | .wire p => (decode Config.configured (.wire p) (b :: bs)).toOption
    | .payload => (decode Config.configured .payload (tablePayload Config.configured (b :: bs))).toOption

end Sys2Proof
end

