-- ==== Sys2Proof/Machine/State.lean ====
section
/-! DEFINITION. The state of the block (spec/10_state.md), the environment's inputs as plain data, the port
events, the reasons a step stops, and the state after reset. -/

namespace Sys2Proof.Machine

/-- The session mode (R31). -/
inductive Mode where
  | init
  | bootWait
  | runApplication
deriving DecidableEq, Repr

/-- Which part of a loop iteration comes next (R282): service the watchdog, drain RX, poll ABORT.
DEDUCED (log 4): byte steps fall between the parts (R305), so the place in the loop is state. -/
inductive Phase where
  | service
  | drain
  | poll
deriving DecidableEq, Repr

/-- The causes of `discard(reason)` with the info each carries (R301). -/
inductive DiscardReason where
  /-- E1: the byte ignored. -/
  | framingNoise (b : Byte)
  /-- E2. -/
  | checksumMismatch
  /-- E3. -/
  | overflow
  /-- E4: the command's address. -/
  | protection (a : Addr)
  /-- E5: the code. -/
  | unknownCommand (code : Byte)
  /-- E6: the code and `|A|`. -/
  | shortArgs (code : Byte) (n : Nat)
  /-- E7: `i`. -/
  | shortFrame (i : Nat)
  /-- E8: `|P|`. -/
  | noCommand (n : Nat)
deriving DecidableEq, Repr

/-- The cause's number n in E<n> (R301). -/
def DiscardReason.number : DiscardReason → Nat
  | .framingNoise _ => 1
  | .checksumMismatch => 2
  | .overflow => 3
  | .protection _ => 4
  | .unknownCommand _ => 5
  | .shortArgs _ _ => 6
  | .shortFrame _ => 7
  | .noCommand _ => 8

/-- One event of the trace (R42). -/
inductive Event where
  | rx (b : Byte)
  | tx (b : Byte)
  | erasePage (a : Addr)
  | readWord (a : Addr) (w : Word)
  | writeRow (a : Addr) (ws : List Word)
  | writeDoubleWord (a : Addr) (w0 w1 : Word)
  | jumpToApplication (a : Addr)
  | live
  | wdt
  | enter (v : Bool)
  | abort (v : Bool)
  /-- The internal event; it is on no port (R42, D33). -/
  | discard (r : DiscardReason)
deriving DecidableEq, Repr

/-- Whether an event is on a port (R42). -/
def Event.onPort : Event → Bool
  | .rx _ | .tx _ => true
  | .erasePage _ | .readWord _ _ | .writeRow _ _ | .writeDoubleWord _ _ _ => true
  | .jumpToApplication _ | .live | .wdt | .enter _ | .abort _ => true
  | .discard _ => false

/-- Sparse byte memory: (address, byte) pairs in canonical form (`Memory.wf`), an unlisted byte reading as 0, the
value R45 and R187 give every byte of the buffer. -/
abbrev Memory := List Host.Cell

/-- Sparse word memory of the reference flash model: (address, word) pairs in canonical form. -/
abbrev WordMemory := List (Nat × Word)

/-- The agent behind the flash port (D18). -/
inductive FlashAgent where
  /-- No flash model (D40): the answer to the n-th read is the free value `Config.flashOracle n`; `reads` counts
  the reads answered. -/
  | oracle (reads : Nat)
  /-- The reference flash model (D19): every 32-bit address holds a word, an unlisted one `erased`. -/
  | reference (erased : Word) (words : WordMemory)
deriving DecidableEq, Repr

/-- The state: the configuration registers (R39), the block's record S and its trace (R30), the place in the
session loop (R282), and the environment behind the ports (R41). -/
structure State where
  /-- The configuration record, read-only (R39). -/
  cfg : Cfg
  /-- R31. -/
  mode : Mode
  /-- R32. -/
  pstate : PState
  /-- The write cursor (R33). -/
  i : Nat
  /-- The parse buffer `Buf` (R34). -/
  buf : Memory
  /-- R35. -/
  sum1 : Byte
  /-- R35. -/
  sum2 : Byte
  /-- Every event so far, oldest first (R30, R42). -/
  trace : List Event
  /-- The part of the loop iteration that comes next (R282). -/
  phase : Phase
  /-- Environment: the answers to the RX polls to come; when none is left a poll finds no byte (log 3). -/
  rx : List (Option Byte)
  /-- Environment: the ENTER input (R281). -/
  enter : Bool
  /-- Environment: the answers to the ABORT polls to come; when none is left the answer is false (log 3). -/
  abort : List Bool
  /-- Environment: how many more bytes the sink accepts before it refuses for ever; none: no bound (D39, log 6). -/
  txAccepts : Option Nat
  /-- Environment: the flash agent (D18). -/
  flash : FlashAgent
deriving DecidableEq, Repr

/-- Why the machine stops. The spec's own error causes are no stops: they are absorbed (R300, R306). -/
inductive Fault where
  /-- Raised by `step` in RUN_APPLICATION, where the block "has no step" (R286). Safe. -/
  | terminated
  /-- Raised by `txAll` when the sink never accepts a byte: the block is stuck (R164, D39, U7). `trace` is
  everything it had emitted. Safe. -/
  | sinkBlocked (trace : List Event)
  /-- Raised by `append` and `endOfMessage` for a buffer index at or above CAP, which does not exist (R70, R194).
  Met from no state that satisfies R46. Safe. -/
  | bufferBound
  /-- Raised by `recvByte` when a byte step begins in END_OF_MESSAGE, which never holds then (R180). Met from no
  state that satisfies R46. Safe. -/
  | endOfMessageAtReceive
deriving DecidableEq, Repr

/-- What the model refuses to run. -/
inductive Refusal where
  /-- Raised by an arm of `exec` that has no meaning yet; no arm is left. Safe. -/
  | notModelled (mnemonic : String)
  /-- Raised by `step` when `cfg` breaks D28: the block has no behaviour for it (R8, R40). Safe. -/
  | illegalConfiguration
deriving DecidableEq, Repr

/-- The outcome of an operation that may stop. -/
abbrev Result := Host.Outcome State Fault Refusal

/-! ### Single-field updates -/

/-- Appends an event to the trace (R12, R42). -/
def State.emit (e : Event) (s : State) : State := { s with trace := s.trace ++ [e] }
/-- Appends events to the trace, in order. -/
def State.emitAll (es : List Event) (s : State) : State := { s with trace := s.trace ++ es }
/-- `mode <- m`. -/
def State.withMode (m : Mode) (s : State) : State := { s with mode := m }
/-- `pstate <- p`. -/
def State.withPState (p : PState) (s : State) : State := { s with pstate := p }
/-- `i <- n`. -/
def State.withI (n : Nat) (s : State) : State := { s with i := n }
/-- Replaces the parse buffer. -/
def State.withBuf (m : Memory) (s : State) : State := { s with buf := m }
/-- `sum1 <- c1; sum2 <- c2`. -/
def State.withSums (c1 c2 : Byte) (s : State) : State := { s with sum1 := c1, sum2 := c2 }
/-- Moves to part `p` of the loop. -/
def State.withPhase (p : Phase) (s : State) : State := { s with phase := p }
/-- Replaces the RX answers to come. -/
def State.withRx (l : List (Option Byte)) (s : State) : State := { s with rx := l }
/-- Replaces the ABORT answers to come. -/
def State.withAbort (l : List Bool) (s : State) : State := { s with abort := l }
/-- Replaces the sink's bound. -/
def State.withTxAccepts (n : Option Nat) (s : State) : State := { s with txAccepts := n }
/-- Replaces the flash agent. -/
def State.withFlash (f : FlashAgent) (s : State) : State := { s with flash := f }

/-! ### Reset -/

/-- The state right after reset with configuration `c`, the block's elements as R45 and R330 give them (D20, log 2);
the environment has delivered nothing, holds ENTER true and accepts every byte, and no flash model is supplied
(DESIGN CHOICE, log 3, 5, 6). -/
def State.resetWith (c : Cfg) : State where
  cfg := c
  mode := .init
  pstate := .waitForStart
  i := 0
  buf := []
  sum1 := 0#8
  sum2 := 0#8
  trace := []
  phase := .service
  rx := []
  enter := true
  abort := []
  txAccepts := none
  flash := .oracle 0

/-- The machine right after reset (R45, R330), under `Config.configured` (DESIGN CHOICE, log 1). -/
def State.reset : State := State.resetWith Config.configured

end Sys2Proof.Machine
end

