-- ==== Sys2Proof/Machine/Ops.lean ====
section
/-! DEFINITION. The shared operations over the parse buffer, the flash agent, the ports and the outcomes;
`raiseDiscard` is the block's one way of meeting an error cause (its "trap entry", spec/60_exceptions.md R306) and
`wipe` the one way back (R307). -/

namespace Sys2Proof.Machine

/-! ### Sparse memories in canonical form -/

/-- The value at address `a`; `d` where none is listed. -/
def sparseRead {w : Nat} (d : BitVec w) : List (Nat × BitVec w) → Nat → BitVec w
  | [], _ => d
  | (k, x) :: m, a => if a = k then x else sparseRead d m a

/-- Writes `v` at `a`, keeping the canonical form: writing `d` removes the entry. -/
def sparseWrite {w : Nat} (d : BitVec w) : List (Nat × BitVec w) → Nat → BitVec w → List (Nat × BitVec w)
  | [], a, v => if v = d then [] else [(a, v)]
  | (k, x) :: m, a, v =>
    if a < k then (if v = d then (k, x) :: m else (a, v) :: (k, x) :: m)
    else if a = k then (if v = d then m else (a, v) :: m)
    else (k, x) :: sparseWrite d m a v

/-- Canonical form from address `lo` on: addresses strictly rising, no value equal to `d`. -/
def sparseWf {w : Nat} (d : BitVec w) : Nat → List (Nat × BitVec w) → Bool
  | _, [] => true
  | lo, (k, x) :: m => decide (lo ≤ k) && x != d && sparseWf d (k + 1) m

/-- One byte of the parse buffer. -/
def Memory.read (m : Memory) (a : Nat) : Byte := sparseRead 0#8 m a

/-- Writes one byte of the parse buffer; "the buffer is written one byte at a time only" (R12). -/
def Memory.write (m : Memory) (a : Nat) (v : Byte) : Memory := sparseWrite 0#8 m a v

/-- The canonical form of a byte memory. -/
def Memory.wf (m : Memory) : Bool := sparseWf 0#8 0 m

/-! ### Outcomes -/

/-- Runs `f` on the next state; a stop stays a stop. -/
def andThen (o : Result) (f : State → Result) : Result :=
  match o with
  | .next s => f s
  | .fault r => .fault r
  | .refused r => .refused r

/-! ### Error causes and their absorption (R301, R306, R307) -/

/-- `raise Discard(reason)`: records the internal event and does nothing else (R12, R301). -/
def raiseDiscard (r : DiscardReason) (s : State) : State := s.emit (.discard r)

/-- `Wipe()` (R187): the empty buffer of R45. -/
def wipe (s : State) : State := ((s.withBuf []).withI 0).withPState .waitForStart

/-! ### The ports (R12, R41) -/

/-- `Tx` of each byte of a sequence, in order (R12, R164): the sink accepts them all, or the block is stuck at the
first byte the sink refuses. DESIGN CHOICE (log 6): the byte the sink never accepts is no `tx` event of the stuck
block's trace, which holds the accepted bytes only; R12 and R164 do not say. -/
def txAll (l : List Byte) (s : State) : Result :=
  match s.txAccepts with
  | none => .next (s.emitAll (l.map .tx))
  | some n =>
    if l.length ≤ n then .next ((s.emitAll (l.map .tx)).withTxAccepts (some (n - l.length)))
    else .fault (.sinkBlocked (s.trace ++ (l.take n).map .tx))

/-- `Live()` (R12, R190). -/
def live (s : State) : State := s.emit .live

/-- `ServiceWdt()` (R12, R283). -/
def serviceWdt (s : State) : State := s.emit .wdt

/-- `JumpApp(APP_START_ADDR); mode <- RUN_APPLICATION` (R249, R281, R284, R287). -/
def jumpApp (s : State) : State := (s.emit (.jumpToApplication s.cfg.appStartAddr)).withMode .runApplication

/-- One poll of RX (R41, R193): the answer, and the state with that answer consumed. -/
def pollRx (s : State) : Option Byte × State :=
  match s.rx with
  | [] => (none, s)
  | x :: l => (x, s.withRx l)

/-- One poll of ABORT (R41, R284). -/
def pollAbort (s : State) : Bool × State :=
  match s.abort with
  | [] => (false, s.emit (.abort false))
  | v :: l => (v, (s.withAbort l).emit (.abort v))

/-! ### Flash addresses and the flash agent (R71, R72, R79, D18, D19) -/

/-- `(a + k*ADDR_STEP) mod 2^32`, the address of the k-th word of an access at `a` (R72). -/
def spanAddr (a : Addr) (k : Nat) : Addr := a + BitVec.ofNat 32 (k * addrStep)

/-- `read_word(a)` at the agent: the answer, and the agent after it; a read changes no word (R79). -/
def FlashAgent.read (a : Addr) : FlashAgent → Word × FlashAgent
  | .oracle n => (Config.flashOracle n, .oracle (n + 1))
  | .reference d m => (sparseRead d m a.toNat, .reference d m)

/-- The agent after one word is overwritten (D19); without a flash model nothing is known of it (D40). -/
def FlashAgent.writeWord (a : Addr) (w : Word) : FlashAgent → FlashAgent
  | .oracle n => .oracle n
  | .reference d m => .reference d (sparseWrite d m a.toNat w)

/-- The agent after `ws[k]` is written at `a + k*ADDR_STEP` for each `k`, in ascending order (D19). -/
def FlashAgent.writeWords (a : Addr) : List Word → FlashAgent → FlashAgent
  | [], f => f
  | w :: ws, f => FlashAgent.writeWords (spanAddr a 1) ws (f.writeWord a w)

/-- The agent after `erase_page(a)`: every address in `[p, p + PAGE_SIZE*ADDR_STEP)` reads as the erased word,
`p = a - (a mod (PAGE_SIZE*ADDR_STEP))` (D19; its corners: log 17). -/
def FlashAgent.erasePage (pageSize : Nat) (a : Addr) : FlashAgent → FlashAgent
  | .oracle n => .oracle n
  | .reference d m =>
    let span := pageSize * addrStep
    let p := a.toNat - a.toNat % span
    .reference d (m.filter fun c => !(decide (p ≤ c.1) && decide (c.1 < p + span)))

/-- The word the reference flash model holds at `a`; none where no flash model is supplied (D19, D40). -/
def FlashAgent.wordAt (a : Addr) : FlashAgent → Option Word
  | .oracle _ => none
  | .reference d m => some (sparseRead d m a.toNat)

/-- The canonical form of the agent's words, and no word beyond the 32-bit addresses (D19). -/
def FlashAgent.wf : FlashAgent → Bool
  | .oracle _ => true
  | .reference d m => sparseWf d 0 m && m.all fun c => decide (c.1 < 2 ^ 32)

/-- `FlashErasePage(a)` (R12, R78). -/
def flashErasePage (a : Addr) (s : State) : State :=
  (s.emit (.erasePage a)).withFlash (s.flash.erasePage s.cfg.pageSize a)

/-- `FlashReadWord(a) -> w` (R12, R78). -/
def flashReadWord (a : Addr) (s : State) : Word × State :=
  ((s.flash.read a).1, (s.emit (.readWord a (s.flash.read a).1)).withFlash (s.flash.read a).2)

/-- `FlashWriteRow(a, ws)` (R12, R78). -/
def flashWriteRow (a : Addr) (ws : List Word) (s : State) : State :=
  (s.emit (.writeRow a ws)).withFlash (s.flash.writeWords a ws)

/-- `FlashWriteDouble(a, w0, w1)` (R12, R78). -/
def flashWriteDouble (a : Addr) (w0 w1 : Word) (s : State) : State :=
  (s.emit (.writeDoubleWord a w0 w1)).withFlash (s.flash.writeWords a [w0, w1])

/-- `FlashReadWord` at each address of a list, in order: the words, and the state after the last read (R246). -/
def flashReadWords : List Addr → State → List Word × State
  | [], s => ([], s)
  | a :: as, s =>
    ((flashReadWord a s).1 :: (flashReadWords as (flashReadWord a s).2).1,
      (flashReadWords as (flashReadWord a s).2).2)

/-- `FlashWriteRow` for each (address, row) of a list, in order (R248). -/
def flashWriteRows : List (Addr × List Word) → State → State
  | [], s => s
  | r :: rs, s => flashWriteRows rs (flashWriteRow r.1 r.2 s)

end Sys2Proof.Machine
end

