-- ==== Sys2Proof/Machine/Flags.lean ====
section
/-! DEFINITION. The four conditions computed inside a step and never stored (spec/10_state.md R38). -/

namespace Sys2Proof.Machine

/-- `in_boot(a)`: `a` lies in `[BOOT_BASE, BOOT_END)`, unsigned (R240). -/
def inBoot (c : Cfg) (a : Addr) : Bool := decide (c.bootBase ≤ a) && decide (a < c.bootEnd)

/-- `below_ivt(a)`: `a < IVT_BASE`, unsigned (R241). -/
def belowIvt (c : Cfg) (a : Addr) : Bool := decide (a < c.ivtBase)

/-- The overflow guard, tested after each store: `i == CAP` (R186, D11). -/
def overflow (s : State) : Bool := s.i == s.cfg.cap

/-- `LE16` of the last two buffered bytes, the transmitted checksum (R188). -/
def receivedChecksum (s : State) : BitVec 16 := s.buf.read (s.i - 1) ++ s.buf.read (s.i - 2)

/-- `Buf[0..n)` as a sequence (R12). -/
def buffered (s : State) (n : Nat) : List Byte := (List.range n).map s.buf.read

/-- `cksum_ok`: `Compute(Buf, i-2)` equals the transmitted checksum (R188). -/
def cksumOk (s : State) : Bool := compute (buffered s s.i) (s.i - 2) == receivedChecksum s

end Sys2Proof.Machine
end

