-- ==== Sys2Proof/Machine/Operands.lean ====
section
/-! DEFINITION. What the commands work on: the verified payload, the words of a row, the addresses of a span
(spec/42_receiver.md R188, 44_dispatch_flash.md R246 to R248). -/

namespace Sys2Proof.Machine

/-- The verified payload `P = Buf[0 .. i-2)` (R188). -/
def payload (s : State) : List Byte := buffered s (s.i - 2)

/-- The addresses of `n` consecutive words from `a`, ascending, wrapping mod 2^32 (R246). -/
def spanAddrs (a : Addr) (n : Nat) : List Addr := (List.range n).map (spanAddr a)

/-- The words of a bulk write with the jump pair forced into the first two when the address is 0 (R248). -/
def forceJumpPair (c : Cfg) (a : Addr) (ws : List Word) : List Word :=
  if a = 0#32 then [c.jump0, c.jump1] ++ ws.drop 2 else ws

/-- The rows of a bulk write: row `r` is `w_{r*R} .. w_{r*R+R-1}` at `(a + r*R*ADDR_STEP) mod 2^32`, for
`0 <= r < MAX_PROG_SIZE/R`, ascending (R248). -/
def bulkRows (c : Cfg) (a : Addr) (ws : List Word) : List (Addr × List Word) :=
  (List.range (c.maxProgSize / c.rowSize)).map fun r =>
    (spanAddr a (r * c.rowSize), (ws.drop (r * c.rowSize)).take c.rowSize)

end Sys2Proof.Machine
end

