-- ==== Sys2Proof/Machine/Checksum.lean ====
section
/-! DEFINITION. The transmitter's accumulator (spec/40_checksum.md R140, R141; 10_state.md R35). -/

namespace Sys2Proof.Machine

/-- `Accumulate(b)`: `sum2` adds the new `sum1`; both wrap mod 256 (R140). -/
def accumulate (b : Byte) (s : State) : State := s.withSums (s.sum1 + b) (s.sum2 + (s.sum1 + b))

/-- The running checksum `C(S) = (sum2 << 8) | sum1` (R35), the value `Accumulate` returns (R140). -/
def runningChecksum (s : State) : BitVec 16 := s.sum2 ++ s.sum1

/-- `Accumulate` over a sequence, in order (R143). -/
def accumulateAll : List Byte → State → State
  | [], s => s
  | b :: l, s => accumulateAll l (accumulate b s)

end Sys2Proof.Machine
end

