-- ==== Sys2Proof/Machine/Transmitter.lean ====
section
/-! DEFINITION. The reply frame encoder (spec/41_transmitter.md R160 to R163). -/

namespace Sys2Proof.Machine

/-- `FrameStart()` (R160): zero sums, then the raw start marker. -/
def frameStart (s : State) : Result := txAll [startMarkerByte] (s.withSums 0#8 0#8)

/-- `SendByte(b)` (R161): the logical value is accumulated, then sent, escaped if it is a marker value. -/
def sendByte (b : Byte) (s : State) : Result := txAll (esc b) (accumulate b s)

/-- `SendByte` for each byte of a sequence, in order (R163). -/
def sendBytes : List Byte → State → Result
  | [], s => .next s
  | b :: l, s => andThen (sendByte b s) (sendBytes l)

/-- `FrameEnd()` (R162): the checksum is latched before either of its bytes is sent. -/
def frameEnd (s : State) : Result :=
  andThen (sendByte ((runningChecksum s).extractLsb' 0 8) s) fun s1 =>
    andThen (sendByte ((runningChecksum s).extractLsb' 8 8) s1) (txAll [endMarkerByte])

/-- `SendFrame(cmd, data)` (R163): length low and high byte, command, data. -/
def sendFrame (cmd : Byte) (data : List Byte) (s : State) : Result :=
  andThen (frameStart s) fun s1 =>
    andThen (sendBytes (bytes16 (BitVec.ofNat 16 data.length)) s1) fun s2 =>
      andThen (sendByte cmd s2) fun s3 =>
        andThen (sendBytes data s3) frameEnd

end Sys2Proof.Machine
end

