-- ==== Sys2Proof/Machine/Flash.lean ====
section
/-! DEFINITION. The commands that reach flash or leave the bootloader, with the validator's verdicts
(spec/44_dispatch_flash.md R242 to R249), and the unknown command (43_dispatch_info.md R214). -/

namespace Sys2Proof.Machine

/-- ERASE_PAGE (R244). -/
def execErasePage (a : Addr) (s : State) : Result :=
  if inBoot s.cfg a then .next (raiseDiscard (.protection a) s)
  else if a = 0#32 then .next (flashWriteDouble 0#32 s.cfg.jump0 s.cfg.jump1 (flashErasePage a s))
  else .next (flashErasePage a s)

/-- READ_ADDR (R245): no check; the read completes before the reply (D27). -/
def execReadAddr (a : Addr) (s : State) : Result :=
  sendFrame 0x20#8 (bytes32 a ++ bytes32 (flashReadWord a s).1) (flashReadWord a s).2

/-- READ_MAX (R246): `MAX_PROG_SIZE` reads in ascending order, then the reply (D27). -/
def execReadMax (a : Addr) (s : State) : Result :=
  sendFrame 0x21#8 (bytes32 a ++ wordBytes (flashReadWords (spanAddrs a s.cfg.maxProgSize) s).1)
    (flashReadWords (spanAddrs a s.cfg.maxProgSize) s).2

/-- WRITE_ROW (R247). -/
def execWriteRow (a : Addr) (ws : List Word) (s : State) : Result :=
  if inBoot s.cfg a || belowIvt s.cfg a then .next (raiseDiscard (.protection a) s)
  else .next (flashWriteRow a ws s)

/-- WRITE_MAX_PROG_SIZE (R248): no `below_ivt` check (C5); decided once before the first row (R303). -/
def execWriteMaxProgSize (a : Addr) (ws : List Word) (s : State) : Result :=
  if inBoot s.cfg a then .next (raiseDiscard (.protection a) s)
  else .next (flashWriteRows (bulkRows s.cfg a (forceJumpPair s.cfg a ws)) s)

/-- START_APP (R249). -/
def execStartApp (s : State) : Result := .next (jumpApp s)

/-- UNKNOWN (R214): no-op, no reply. -/
def execUnknown (code : Byte) (s : State) : Result := .next (raiseDiscard (.unknownCommand code) s)

end Sys2Proof.Machine
end

