-- ==== Sys2Proof/Machine/Info.lean ====
section
/-! DEFINITION. The eight informational commands (spec/43_dispatch_info.md R215 to R223): one reply frame each,
with the request's code (D4) and the data of 30_encoding.md R112. -/

namespace Sys2Proof.Machine

/-- READ_PLATFORM (R216). -/
def execReadPlatform (s : State) : Result := sendFrame 0x00#8 s.cfg.platformString s

/-- READ_VERSION (R217). -/
def execReadVersion (s : State) : Result := sendFrame 0x01#8 s.cfg.versionString s

/-- READ_ROW_LEN (R218). -/
def execReadRowLen (s : State) : Result := sendFrame 0x02#8 (bytes16 (BitVec.ofNat 16 s.cfg.rowSize)) s

/-- READ_PAGE_LEN (R219). -/
def execReadPageLen (s : State) : Result := sendFrame 0x03#8 (bytes16 (BitVec.ofNat 16 s.cfg.pageSize)) s

/-- READ_PROG_LEN (R220). -/
def execReadProgLen (s : State) : Result := sendFrame 0x04#8 (bytes32 s.cfg.progLen) s

/-- READ_MAX_PROG_SIZE (R221). -/
def execReadMaxProgSize (s : State) : Result :=
  sendFrame 0x05#8 (bytes16 (BitVec.ofNat 16 s.cfg.maxProgSize)) s

/-- READ_APP_START_ADDR (R222): bits 15:0 only. -/
def execReadAppStartAddr (s : State) : Result :=
  sendFrame 0x06#8 (bytes16 (s.cfg.appStartAddr.extractLsb' 0 16)) s

/-- READ_BOOT_START_ADDR (R223): bits 15:0 of `BOOT_BASE`. -/
def execReadBootStartAddr (s : State) : Result :=
  sendFrame 0x07#8 (bytes16 (s.cfg.bootBase.extractLsb' 0 16)) s

end Sys2Proof.Machine
end

