-- ==== Sys2Proof/Machine/Receiver.lean ====
section
/-! DEFINITION. The frame receiver's wire classes (spec/42_receiver.md R181 to R191) and the dispatcher its end of
frame calls (43_dispatch_info.md R210). A meaning is that of its row; which row a raw byte is in is the decoder's
(log 21). -/

namespace Sys2Proof.Machine

/-- Performs a command (R210, last line). -/
def perform (k : Command) (s : State) : Result :=
  match k with
  | .readPlatform => execReadPlatform s
  | .readVersion => execReadVersion s
  | .readRowLen => execReadRowLen s
  | .readPageLen => execReadPageLen s
  | .readProgLen => execReadProgLen s
  | .readMaxProgSize => execReadMaxProgSize s
  | .readAppStartAddr => execReadAppStartAddr s
  | .readBootStartAddr => execReadBootStartAddr s
  | .erasePage a => execErasePage a s
  | .readAddr a => execReadAddr a s
  | .readMax a => execReadMax a s
  | .writeRow a ws => execWriteRow a ws s
  | .writeMaxProgSize a ws => execWriteMaxProgSize a ws s
  | .startApp => execStartApp s
  | .unknown code => execUnknown code s

/-- The cause a payload that decodes to no command is dropped for (R211, R213); the last two never come from a
payload. -/
def rejectReason : Reject → Option DiscardReason
  | .noCommand n => some (.noCommand n)
  | .shortArgs code n => some (.shortArgs code n)
  | .noByte => none
  | .endOfMessage => none

/-- Records why a payload is dropped. -/
def dropPayload (r : Reject) (s : State) : State :=
  match rejectReason r with
  | some d => raiseDiscard d s
  | none => s

/-- `Dispatch(P)` (R210). -/
def dispatch (P : List Byte) (s : State) : Result :=
  match decodePayload s.cfg P with
  | .error r => .next (dropPayload r s)
  | .ok k => perform k s

/-- `Append(v)` (R186): the guard fires on the store that brings `i` to CAP (D11). -/
def append (v : Byte) (s : State) : Result :=
  if s.i < s.cfg.cap then
    let s1 := (s.withBuf (s.buf.write s.i v)).withI (s.i + 1)
    if overflow s1 then .next (raiseDiscard .overflow (wipe s1)) else .next s1
  else .fault .bufferBound

/-- What follows the end-of-frame handling: the wipe, except after START_APP (R188 last line, R191). -/
def finishFrame (s : State) : Result :=
  if s.mode = .bootWait then .next (wipe s) else .next s

/-- The verdict on a frame before the wipe (R188 to R190, order E7 then E2, R304). -/
def judgeFrame (s : State) : Result :=
  if s.i < 2 then .next (raiseDiscard (.shortFrame s.i) s)
  else if cksumOk s then dispatch (payload s) (live s)
  else .next (raiseDiscard .checksumMismatch s)

/-- `EndOfMessage()` (R188). -/
def endOfMessage (s : State) : Result :=
  if s.i ≤ s.cfg.cap then andThen (judgeFrame s) finishFrame else .fault .bufferBound

/-- START_MARKER (R181). -/
def execStartMarker (s : State) : Result := .next (s.withPState .readVerbatim)

/-- NOISE (R181). -/
def execNoise (b : Byte) (s : State) : Result := .next (raiseDiscard (.framingNoise b) s)

/-- ESCAPE_MARKER (R182). -/
def execEscapeMarker (s : State) : Result := .next (s.withPState .readEscaped)

/-- END_MARKER (R183). -/
def execEndMarker (s : State) : Result := endOfMessage (s.withPState .endOfMessage)

/-- DATA (R184). -/
def execData (b : Byte) (s : State) : Result := append b s

/-- ESCAPED_BYTE (R185): any raw byte stands for itself XOR 0x20. -/
def execEscapedByte (b : Byte) (s : State) : Result := append (b ^^^ escapeXor) (s.withPState .readVerbatim)

end Sys2Proof.Machine
end

