-- ==== Sys2Proof/Machine/Dispatch.lean ====
section
/-! DEFINITION. The meaning of every instruction, one arm for each row of spec/opcode_table.json. -/

namespace Sys2Proof.Machine

def exec (i : Instr) (s : State) : Host.Outcome State Fault Refusal :=
  match i with
  | .readPlatform => Sys2Proof.Machine.execReadPlatform s
  | .readVersion => Sys2Proof.Machine.execReadVersion s
  | .readRowLen => Sys2Proof.Machine.execReadRowLen s
  | .readPageLen => Sys2Proof.Machine.execReadPageLen s
  | .readProgLen => Sys2Proof.Machine.execReadProgLen s
  | .readMaxProgSize => Sys2Proof.Machine.execReadMaxProgSize s
  | .readAppStartAddr => Sys2Proof.Machine.execReadAppStartAddr s
  | .readBootStartAddr => Sys2Proof.Machine.execReadBootStartAddr s
  | .erasePage a => Sys2Proof.Machine.execErasePage a s
  | .readAddr a => Sys2Proof.Machine.execReadAddr a s
  | .readMax a => Sys2Proof.Machine.execReadMax a s
  | .writeRow a ws => Sys2Proof.Machine.execWriteRow a ws s
  | .writeMaxProgSize a ws => Sys2Proof.Machine.execWriteMaxProgSize a ws s
  | .startApp => Sys2Proof.Machine.execStartApp s
  | .unknown code => Sys2Proof.Machine.execUnknown code s
  | .startMarker => Sys2Proof.Machine.execStartMarker s
  | .noise b => Sys2Proof.Machine.execNoise b s
  | .escapeMarker => Sys2Proof.Machine.execEscapeMarker s
  | .endMarker => Sys2Proof.Machine.execEndMarker s
  | .data b => Sys2Proof.Machine.execData b s
  | .escapedByte b => Sys2Proof.Machine.execEscapedByte b s

end Sys2Proof.Machine
end

