-- ==== Sys2Proof/Machine/Session.lean ====
section
/-! DEFINITION. The receive step and the session's steps (spec/42_receiver.md R180, R192, R193;
45_session.md R281 to R286), and placing a table word. -/

namespace Sys2Proof.Machine

/-- `RecvByte(b)` (R180): the byte is taken (event `rx(b)`, R42), its class decoded in `pstate`, its rule performed. -/
def recvByte (b : Byte) (s : State) : Result :=
  match decode s.cfg (.wire s.pstate) [b] with
  | .ok k => exec k (s.emit (.rx b))
  | .error _ => .fault .endOfMessageAtReceive

/-- The startup decision (R281), with the loop to begin at its first part (R282). -/
def startupDecision (s : State) : Result :=
  if s.enter then .next (((s.emit (.enter true)).withMode .bootWait).withPhase .service)
  else .next (jumpApp (s.emit (.enter false)))

/-- The first part of an iteration (R282, R283). -/
def servicePart (s : State) : Result := .next ((serviceWdt s).withPhase .drain)

/-- One poll of the drain (R193, R282): take a byte and receive it, or leave the drain. -/
def drainPart (s : State) : Result :=
  match pollRx s with
  | (some b, s1) => recvByte b s1
  | (none, s1) => .next (s1.withPhase .poll)

/-- The last part of an iteration (R282, R284). -/
def pollPart (s : State) : Result :=
  match pollAbort s with
  | (true, s1) => .next (jumpApp s1)
  | (false, s1) => .next (s1.withPhase .service)

/-- One part of a loop iteration in BOOT_WAIT (R282). -/
def loopPart (s : State) : Result :=
  match s.phase with
  | .service => servicePart s
  | .drain => drainPart s
  | .poll => pollPart s

/-- The step of a legally configured block, selected by `mode` (R281, R282, R286). -/
def stepMode (s : State) : Result :=
  match s.mode with
  | .init => startupDecision s
  | .bootWait => loopPart s
  | .runApplication => .fault .terminated

/-! ### Placing a table word (log 11) -/

/-- A buffer holding the bytes `l` from index `k` on. -/
def storeFrom (k : Nat) : List Byte → Memory → Memory
  | [], m => m
  | b :: l, m => storeFrom (k + 1) l (m.write k b)

/-- The receiver in BOOT_WAIT, in the drain, in parser state `p`, about to take the raw byte `b`. -/
def State.aboutToTake (p : PState) (b : Byte) (s : State) : State :=
  (((s.withMode .bootWait).withPhase .drain).withPState p).withRx (some b :: s.rx)

/-- The receiver holding the whole frame of the verified payload `P` but for its end marker, which comes next. -/
def State.aboutToEnd (P : List Byte) (s : State) : State :=
  ((s.withBuf (storeFrom 0 (withChecksum P) [])).withI (withChecksum P).length).aboutToTake .readVerbatim endMarkerByte

/-- Places a table word's bytes: a wire class as the next raw byte in its parser state, a command as a complete
frame whose end marker comes next. -/
def placeTableBytes (bytes : List Byte) (s : State) : State :=
  match bytes with
  | [] => s
  | b :: bs =>
    match tableContext b with
    | .wire .waitForStart => ((s.withBuf []).withI 0).aboutToTake .waitForStart b
    | .wire p => s.aboutToTake p b
    | .payload => s.aboutToEnd (tablePayload s.cfg (b :: bs))

end Sys2Proof.Machine
end

