-- ==== Sys2Proof/Machine/Step.lean ====
section
/-! DEFINITION. One step of the machine: one operation rule, atomic (spec/00_scope.md R13). -/

namespace Sys2Proof.Machine

/-- One step: an illegal configuration is refused (R8, R40); otherwise `mode` selects the rule. -/
def step (s : State) : Host.Outcome State Fault Refusal :=
  if s.cfg.Legal then stepMode s else .refused .illegalConfiguration

/-- `s` with the table word `w` of `nbits` bits placed where the next step takes it (log 11). -/
def State.withFetchWord (s : State) (nbits w : Nat) : State := placeTableBytes (tableBytes nbits w) s

end Sys2Proof.Machine
end

