-- ==== Sys2Proof/Machine/Reset.lean ====
section
/-! DEFINITION. A reset of the block by the platform (spec/70_reset_and_hazards.md R330, R332, R338): between two steps,
or at any moment between two events of one. It is no step of the block: what causes it is the platform's (R330). -/

namespace Sys2Proof.Machine

/-- A reset of the block in state `s` (R330, R332): the block's elements take their reset values; the configuration
and the environment behind the ports are not the block's and stay (DESIGN CHOICE, log 16). -/
def State.resetBlock (s : State) : State :=
  { State.resetWith s.cfg with
    rx := s.rx, enter := s.enter, abort := s.abort, txAccepts := s.txAccepts, flash := s.flash }

/-- What one event does behind its port: a byte leaves RX, a byte reaches the sink, an answer leaves ABORT, flash takes
a request, which is complete before the next event (R42, R79). -/
def Event.environment (e : Event) (s : State) : State :=
  match e with
  | .rx _ => s.withRx s.rx.tail
  | .tx _ => s.withTxAccepts (s.txAccepts.map (· - 1))
  | .erasePage a => s.withFlash (s.flash.erasePage s.cfg.pageSize a)
  | .readWord a _ => s.withFlash (s.flash.read a).2
  | .writeRow a ws => s.withFlash (s.flash.writeWords a ws)
  | .writeDoubleWord a w0 w1 => s.withFlash (s.flash.writeWords a [w0, w1])
  | .abort _ => s.withAbort s.abort.tail
  | .jumpToApplication _ | .live | .wdt | .enter _ | .discard _ => s

/-- The environment after a sequence of events, in order. -/
def replay : List Event → State → State
  | [], s => s
  | e :: es, s => replay es (e.environment s)

/-- The events of the step from `s`, in order; for a block stuck on its sink, those up to where it is stuck. -/
def stepEvents (s : State) : List Event :=
  match step s with
  | .next t => t.trace.drop s.trace.length
  | .fault (.sinkBlocked trace) => trace.drop s.trace.length
  | .fault _ => []
  | .refused _ => []

/-- A reset that falls in the step from `s`, after its first `k` events (R338, R337): what the environment took in
those events stays taken, the rest of the step never happens. DEDUCED (log 20). -/
def State.resetWithin (k : Nat) (s : State) : State := (replay ((stepEvents s).take k) s).resetBlock

end Sys2Proof.Machine
end

