-- ==== Sys2Proof/Safety.lean ====
section
/-! DEFINITION. What claims are stated with: the invariant of spec/10_state.md R46, the trace's shape, the reply
frames, and runs of several steps. -/

namespace Sys2Proof.Machine

/-- `n` steps, stopping at the first stop. -/
def runSteps : Nat → State → Result
  | 0, s => .next s
  | n + 1, s => andThen (step s) (runSteps n)

/-- Everything that can happen to the machine: a step of the block, or a reset by the platform, at any moment of a
step or before it (R330, R332, R338). -/
def Moves (s t : State) : Prop := step s = .next t ∨ ∃ k, t = s.resetWithin k

/-- The receiver between two steps (R46 (a) to (d)). -/
structure ReceiverOk (s : State) : Prop where
  /-- (a). -/
  notEnd : s.pstate ≠ .endOfMessage
  /-- (b). -/
  waitingEmpty : s.pstate = .waitForStart → s.i = 0
  /-- (c). -/
  cursor : s.i < s.cfg.cap
  /-- (d). -/
  tailZero : ∀ k, s.i ≤ k → s.buf.read k = 0#8

/-- What every step keeps: the canonical form of both memories, the receiver's invariant until control is
transferred (R46), and the receiver of a block that has not started (R45). -/
structure Inv (s : State) : Prop where
  bufCanonical : s.buf.wf = true
  flashCanonical : s.flash.wf = true
  receiver : s.mode ≠ .runApplication → ReceiverOk s
  initWaiting : s.mode = .init → s.pstate = .waitForStart

/-- Whether an event is the jump. -/
def Event.isJump : Event → Bool
  | .jumpToApplication _ => true
  | _ => false

/-- Whether an event takes a byte from RX. -/
def Event.isRx : Event → Bool
  | .rx _ => true
  | _ => false

/-- Whether an event is a request on the flash port, a transmitted byte or the jump: everything a command can do to
the world. -/
def Event.isAction : Event → Bool
  | .tx _ | .erasePage _ | .readWord _ _ | .writeRow _ _ | .writeDoubleWord _ _ _ | .jumpToApplication _ => true
  | _ => false

/-- The trace holds no jump while the block runs, and ends with its one jump, to `APP_START_ADDR`, once it has left
(R286, R287). -/
structure JumpEndsTrace (s : State) : Prop where
  running : s.mode ≠ .runApplication → s.trace.all (fun e => !e.isJump) = true
  left : s.mode = .runApplication →
    ∃ before, s.trace = before ++ [.jumpToApplication s.cfg.appStartAddr] ∧ before.all (fun e => !e.isJump) = true

/-- No erase request of the trace has its address in the boot region (R242, R250). -/
def ErasesOutsideBoot (s : State) : Prop := ∀ a, Event.erasePage a ∈ s.trace → inBoot s.cfg a = false

/-- The sink accepts `n` more bytes (R164). -/
def sinkAccepts (s : State) (n : Nat) : Prop := ∀ m, s.txAccepts = some m → n ≤ m

/-- The events on a port, in order (R42). -/
def portTrace (s : State) : List Event := s.trace.filter Event.onPort

/-- The state after a whole reply frame has been accepted: its raw bytes on TX, the sums left by its checksum bytes
too (R43 (b), R162, R163), nothing else. -/
def replied (cmd : Byte) (data : List Byte) (s : State) : State :=
  { s with
    trace := s.trace ++ (rawFrame cmd data).map .tx
    sum1 := (accumulateAll (withChecksum (logicalBody cmd data)) (s.withSums 0#8 0#8)).sum1
    sum2 := (accumulateAll (withChecksum (logicalBody cmd data)) (s.withSums 0#8 0#8)).sum2
    txAccepts := s.txAccepts.map (· - (rawFrame cmd data).length) }

/-- The eight queries with the code and the data of their replies (R112, R216 to R223). -/
def queryReplies (c : Cfg) : List (Instr × Byte × List Byte) :=
  [(.readPlatform, 0x00#8, c.platformString),
   (.readVersion, 0x01#8, c.versionString),
   (.readRowLen, 0x02#8, bytes16 (BitVec.ofNat 16 c.rowSize)),
   (.readPageLen, 0x03#8, bytes16 (BitVec.ofNat 16 c.pageSize)),
   (.readProgLen, 0x04#8, bytes32 c.progLen),
   (.readMaxProgSize, 0x05#8, bytes16 (BitVec.ofNat 16 c.maxProgSize)),
   (.readAppStartAddr, 0x06#8, bytes16 (c.appStartAddr.extractLsb' 0 16)),
   (.readBootStartAddr, 0x07#8, bytes16 (c.bootBase.extractLsb' 0 16))]

end Sys2Proof.Machine
end

