-- ==== Sys2Proof/Certificates/Slice0/Obligations.lean ====
section
/-! DEFINITION. The statements about the model, from the numbered rules of spec/. Those that rest on a decision the
spec marks as its own (D<n>), or on a choice of the model (log n), say so. -/

open Sys2Proof Sys2Proof.Machine

/-! ### Encoding -/

/-- Decoding the encoding of a well-formed instruction, in its context, gives it back: every command of R108 with every
operand R110 admits, every byte of every wire class of R180. Rests on the code map D3 and on `REQ` (D14). -/
def Obligations.DecodeOfEncodeIsTheInstruction : Prop :=
  ∀ (c : Cfg) (i : Instr), i.wellFormed c = true → decode c i.context (encode i) = .ok i

/-- What the decoder gives is well-formed and belongs to the context it was read in; in a wire context its encoding is
the byte read, and every byte decodes in every state a byte step can begin in (R180). -/
def Obligations.DecodedInstructionIsWellFormed : Prop :=
  (∀ (c : Cfg) (ctx : Context) (bytes : List Byte) (i : Instr), decode c ctx bytes = .ok i →
    i.wellFormed c = true ∧ i.context = ctx) ∧
  (∀ (c : Cfg) (p : PState) (b : Byte), p ≠ .endOfMessage →
    ∃ i, decode c (.wire p) [b] = .ok i ∧ encode i = [b])

/-- Words written out from the spec's encodings decode to the instruction they stand for: the marker values of R100 in
the states of R181 to R183, a pair no encoder emits (R104), and payloads of R108 and R110 (codes by D3). -/
def Obligations.SpecWordsDecode : Prop :=
  decode Config.configured (.wire .waitForStart) [0xF7#8] = .ok .startMarker ∧
  decode Config.configured (.wire .waitForStart) [0x7F#8] = .ok (.noise 0x7F#8) ∧
  decode Config.configured (.wire .readVerbatim) [0xF6#8] = .ok .escapeMarker ∧
  decode Config.configured (.wire .readVerbatim) [0x7F#8] = .ok .endMarker ∧
  decode Config.configured (.wire .readVerbatim) [0xF7#8] = .ok (.data 0xF7#8) ∧
  decode Config.configured (.wire .readEscaped) [0x41#8] = .ok (.escapedByte 0x41#8) ∧
  decode Config.configured .payload [0x00#8, 0x00#8, 0x02#8] = .ok .readRowLen ∧
  decode Config.configured .payload [0x04#8, 0x00#8, 0x20#8, 0xCA#8, 0x08#8, 0x00#8, 0x00#8] =
    .ok (.readAddr 0x000008CA#32)

/-- A known command with fewer argument bytes than `REQ` is dropped as SHORT_ARGS; with `REQ` or more it is performed
from its first `REQ` bytes, whatever the length field and whatever follows; a payload of fewer than 3 bytes carries no
command. D13, D14, D15: the spec's own choices. -/
def Obligations.ArgumentLengthRule : Prop :=
  ∀ (c : Cfg),
    (req c 0x10#8 = 4 ∧ req c 0x20#8 = 4 ∧ req c 0x21#8 = 4 ∧ req c 0x30#8 = 4 + 4 * c.rowSize ∧
      req c 0x31#8 = 4 + 4 * c.maxProgSize ∧ req c 0x40#8 = 0 ∧ ∀ code : Byte, code.toNat ≤ 7 → req c code = 0) ∧
    (∀ P : List Byte, P.length < 3 → decodePayload c P = .error (.noCommand P.length)) ∧
    (∀ (lo hi code : Byte) (A : List Byte), code ∈ commandCodes →
      (A.length < req c code → decodePayload c (lo :: hi :: code :: A) = .error (.shortArgs code A.length)) ∧
      (req c code ≤ A.length → ∃ k, decodePayload c (lo :: hi :: code :: A) = .ok k ∧
        decodePayload c (0#8 :: 0#8 :: code :: A.take (req c code)) = .ok k))

/-- Inside a frame no start or end marker occurs (R103, property S3): after the first and before the last raw byte
every byte differs from 0xF7 and 0x7F, and an escape marker is always followed by an escaped value. -/
def Obligations.NoMarkerInsideFrame : Prop :=
  ∀ (cmd : Byte) (data : List Byte),
    ∃ body, rawFrame cmd data = [0xF7#8] ++ body ++ [0x7F#8] ∧ (∀ b ∈ body, b ≠ 0xF7#8 ∧ b ≠ 0x7F#8) ∧
      ∀ (before after : List Byte), body = before ++ [0xF6#8] ++ after →
        ∃ x rest, after = x :: rest ∧ (x = 0xD7#8 ∨ x = 0x5F#8 ∨ x = 0xD6#8)

/-! ### Checksum -/

/-- Both forms of the checksum agree on every sequence (R143), and accumulating changes nothing but the two sums. -/
def Obligations.ChecksumFormsAgree : Prop :=
  ∀ (s : State) (l : List Byte), s.sum1 = 0#8 → s.sum2 = 0#8 →
    runningChecksum (accumulateAll l s) = compute l l.length ∧
    accumulateAll l s = { s with sum1 := (accumulateAll l s).sum1, sum2 := (accumulateAll l s).sum2 }

/-- `Compute(s, n)` (R142): of the first `n` bytes the low byte is the byte sum mod 256 and the high byte the sum of
the prefix sums mod 256; the two bytes are the whole value. -/
def Obligations.ChecksumBytesAreSums : Prop :=
  ∀ (l : List Byte) (n : Nat), n ≤ l.length →
    (compute l n).toNat =
      (((List.range n).map fun k => ((l.take (k + 1)).map BitVec.toNat).sum).sum % 256) * 256 +
        ((l.take n).map BitVec.toNat).sum % 256

/-- `Accumulate(b)` (R140): each sum wraps mod 256, `sum2` adds the new `sum1`, the value returned is the sums side by
side. -/
def Obligations.AccumulateStep : Prop :=
  ∀ (s : State) (b : Byte), ∃ t, accumulate b s = t ∧
    t.sum1.toNat = (s.sum1.toNat + b.toNat) % 256 ∧ t.sum2.toNat = (s.sum2.toNat + t.sum1.toNat) % 256 ∧
    (runningChecksum t).toNat = t.sum2.toNat * 256 + t.sum1.toNat ∧
    t = { s with sum1 := t.sum1, sum2 := t.sum2 }

/-! ### Informational commands -/

/-- READ_PROG_LEN and READ_MAX_PROG_SIZE each complete with one reply frame of the configured value, write the sums and
nothing else, whenever the sink accepts the frame. Rests on D4 (reply command byte), D6 and D25 (checksum latched). -/
def Obligations.ProgramSizeQueriesReply : Prop :=
  ∀ s : State,
    (sinkAccepts s (rawFrame 0x04#8 (bytes32 s.cfg.progLen)).length →
      exec .readProgLen s = .next (replied 0x04#8 (bytes32 s.cfg.progLen) s)) ∧
    (sinkAccepts s (rawFrame 0x05#8 (bytes16 (BitVec.ofNat 16 s.cfg.maxProgSize))).length →
      exec .readMaxProgSize s = .next (replied 0x05#8 (bytes16 (BitVec.ofNat 16 s.cfg.maxProgSize)) s))

/-- The other informational commands complete with their reply frame and nothing else. Rests on D4 (reply command
byte), D5 (strings), D6, D7 (16-bit values) and D25 (checksum latched). -/
def Obligations.ConfigurationQueriesReply : Prop :=
  ∀ s : State,
    (sinkAccepts s (rawFrame 0x00#8 s.cfg.platformString).length →
      exec .readPlatform s = .next (replied 0x00#8 s.cfg.platformString s)) ∧
    (sinkAccepts s (rawFrame 0x01#8 s.cfg.versionString).length →
      exec .readVersion s = .next (replied 0x01#8 s.cfg.versionString s)) ∧
    (sinkAccepts s (rawFrame 0x02#8 (bytes16 (BitVec.ofNat 16 s.cfg.rowSize))).length →
      exec .readRowLen s = .next (replied 0x02#8 (bytes16 (BitVec.ofNat 16 s.cfg.rowSize)) s)) ∧
    (sinkAccepts s (rawFrame 0x03#8 (bytes16 (BitVec.ofNat 16 s.cfg.pageSize))).length →
      exec .readPageLen s = .next (replied 0x03#8 (bytes16 (BitVec.ofNat 16 s.cfg.pageSize)) s)) ∧
    (sinkAccepts s (rawFrame 0x06#8 (bytes16 (s.cfg.appStartAddr.extractLsb' 0 16))).length →
      exec .readAppStartAddr s = .next (replied 0x06#8 (bytes16 (s.cfg.appStartAddr.extractLsb' 0 16)) s)) ∧
    (sinkAccepts s (rawFrame 0x07#8 (bytes16 (s.cfg.bootBase.extractLsb' 0 16))).length →
      exec .readBootStartAddr s = .next (replied 0x07#8 (bytes16 (s.cfg.bootBase.extractLsb' 0 16)) s))

/-- The informational commands are idempotent: performed twice, the second adds to the trace what the first added
(R215). -/
def Obligations.InformationalCommandsIdempotent : Prop :=
  ∀ (s t u : State), ∀ q ∈ queryReplies s.cfg, exec q.1 s = .next t → exec q.1 t = .next u →
    t.trace = s.trace ++ (rawFrame q.2.1 q.2.2).map .tx ∧ u.trace = t.trace ++ (rawFrame q.2.1 q.2.2).map .tx ∧
      u.sum1 = t.sum1 ∧ u.sum2 = t.sum2 ∧ u.flash = s.flash

/-- A sink that never accepts: every replying command is stuck, having sent exactly the bytes of its reply that were
accepted, after every read of the command (R164). D39: the spec's own choice; the stop is the model's form of it
(log 6). -/
def Obligations.BlockedSinkStopsReply : Prop :=
  ∀ (s : State) (n : Nat), s.txAccepts = some n →
    (∀ q ∈ queryReplies s.cfg, n < (rawFrame q.2.1 q.2.2).length →
      exec q.1 s = .fault (.sinkBlocked (s.trace ++ ((rawFrame q.2.1 q.2.2).take n).map .tx))) ∧
    (∀ a : Addr, n < (rawFrame 0x20#8 (bytes32 a ++ bytes32 (s.flash.read a).1)).length → exec (.readAddr a) s =
      .fault (.sinkBlocked (s.trace ++ [.readWord a (s.flash.read a).1] ++
        ((rawFrame 0x20#8 (bytes32 a ++ bytes32 (s.flash.read a).1)).take n).map .tx))) ∧
    (∀ a : Addr, n < 4 * s.cfg.maxProgSize + 11 → ∃ (ws : List Word) (sent : List Byte),
      ws.length = s.cfg.maxProgSize ∧ sent = (rawFrame 0x21#8 (bytes32 a ++ ws.flatMap bytes32)).take n ∧
      exec (.readMax a) s = .fault (.sinkBlocked (s.trace ++ (List.range s.cfg.maxProgSize).map
        (fun k => .readWord (a + BitVec.ofNat 32 (2 * k)) (ws.getD k 0#32)) ++ sent.map .tx)))

/-! ### Flash commands -/

/-- ERASE_PAGE (R244): the request's argument, the rejection in the boot region, the erase request, and the re-write of
the jump pair for address 0 exactly; nothing of the block changes but the trace. What flash does with a request is the
agent's (`f`; ReferenceFlashEffects). -/
def Obligations.ErasePageEffect : Prop :=
  ∀ (a : Addr) (s : State),
    (∀ (lo hi : Byte) (A : List Byte), 4 ≤ A.length →
      decodePayload s.cfg (lo :: hi :: 0x10#8 :: A) = .ok (.erasePage (le32 A 0))) ∧
    (s.cfg.bootBase ≤ a ∧ a < s.cfg.bootEnd →
      exec (.erasePage a) s = .next { s with trace := s.trace ++ [.discard (.protection a)] }) ∧
    (¬ (s.cfg.bootBase ≤ a ∧ a < s.cfg.bootEnd) → a ≠ 0#32 →
      ∃ f : FlashAgent, exec (.erasePage a) s = .next { s with trace := s.trace ++ [.erasePage a], flash := f }) ∧
    (¬ (s.cfg.bootBase ≤ a ∧ a < s.cfg.bootEnd) → a = 0#32 →
      ∃ f : FlashAgent, exec (.erasePage a) s = .next { s with
        trace := s.trace ++ [.erasePage 0#32, .writeDoubleWord 0#32 s.cfg.jump0 s.cfg.jump1], flash := f })

/-- READ_ADDR: one read of any address, no check, then the reply `[address, word]`; whatever word the agent
answers. Rests on D4, D14, D25 and D27, the spec's own choices. -/
def Obligations.ReadAddrReplies : Prop :=
  ∀ (a : Addr) (s : State),
    (∀ (lo hi : Byte) (A : List Byte), decodePayload s.cfg (lo :: hi :: 0x20#8 :: A) =
      if A.length < 4 then .error (.shortArgs 0x20#8 A.length) else .ok (.readAddr (le32 A 0))) ∧
    (sinkAccepts s (rawFrame 0x20#8 (bytes32 a ++ bytes32 (s.flash.read a).1)).length →
      exec (.readAddr a) s = .next (replied 0x20#8 (bytes32 a ++ bytes32 (s.flash.read a).1)
        { s with
          trace := s.trace ++ [.readWord a (s.flash.read a).1]
          flash := (s.flash.read a).2 }))

/-- READ_MAX: `MAX_PROG_SIZE` reads in ascending order, addresses wrapping mod 2^32, all before the reply that carries
them, when the sink accepts the longest frame such a reply can be. Rests on D8 (address step) and D27 (reads before
reply). -/
def Obligations.ReadMaxReplies : Prop :=
  ∀ (a : Addr) (s : State), sinkAccepts s (8 * s.cfg.maxProgSize + 20) →
    ∃ (ws : List Word) (f : FlashAgent),
      ws.length = s.cfg.maxProgSize ∧
      (∀ b, f.wordAt b = s.flash.wordAt b) ∧
      (∀ k w, k < s.cfg.maxProgSize → s.flash.wordAt (a + BitVec.ofNat 32 (2 * k)) = some w → ws[k]? = some w) ∧
      exec (.readMax a) s = .next (replied 0x21#8 (bytes32 a ++ ws.flatMap bytes32)
        { s with
          trace := s.trace ++ (List.range s.cfg.maxProgSize).map
            (fun k => .readWord (a + BitVec.ofNat 32 (2 * k)) (ws.getD k 0#32))
          flash := f })

/-- WRITE_ROW (R247): the request's arguments, the two rejections, and the one row request; nothing of the block changes
but the trace. What flash does with the request is the agent's (`f`; ReferenceFlashEffects). -/
def Obligations.WriteRowEffect : Prop :=
  ∀ (a : Addr) (ws : List Word) (s : State),
    (∀ (lo hi : Byte) (A : List Byte), decodePayload s.cfg (lo :: hi :: 0x30#8 :: A) =
      if A.length < 4 + 4 * s.cfg.rowSize then .error (.shortArgs 0x30#8 A.length)
      else .ok (.writeRow (le32 A 0) ((List.range s.cfg.rowSize).map fun k => le32 A (4 + 4 * k)))) ∧
    ((s.cfg.bootBase ≤ a ∧ a < s.cfg.bootEnd) ∨ a < s.cfg.ivtBase →
      exec (.writeRow a ws) s = .next { s with trace := s.trace ++ [.discard (.protection a)] }) ∧
    (¬ (s.cfg.bootBase ≤ a ∧ a < s.cfg.bootEnd) → s.cfg.ivtBase ≤ a →
      ∃ f : FlashAgent, exec (.writeRow a ws) s = .next { s with trace := s.trace ++ [.writeRow a ws], flash := f })

/-- What the accepted requests do to the words of flash under the reference flash model (D19; log 5, log 17): a page
erase leaves the erased word at every address of the page, but for the jump pair at 0 and 2 when the address is 0, a row and a bulk write leave each word at its address
`(a + k*ADDR_STEP) mod 2^32`, the forced jump pair in the place of the first two words of a bulk write at 0. -/
def Obligations.ReferenceFlashEffects : Prop :=
  ∀ (s t : State) (d : Word) (m : WordMemory) (a : Addr) (ws : List Word),
    s.cfg.Legal → s.flash = .reference d m → s.flash.wf = true → inBoot s.cfg a = false →
    (exec (.erasePage a) s = .next t → ∀ b : Addr,
      a.toNat - a.toNat % (s.cfg.pageSize * 2) ≤ b.toNat →
      b.toNat < a.toNat - a.toNat % (s.cfg.pageSize * 2) + s.cfg.pageSize * 2 →
      t.flash.wordAt b =
        if a = 0#32 ∧ b = 0#32 then some s.cfg.jump0 else if a = 0#32 ∧ b = 2#32 then some s.cfg.jump1 else some d) ∧
    (ws.length = s.cfg.rowSize → s.cfg.ivtBase ≤ a → exec (.writeRow a ws) s = .next t →
      ∀ k < ws.length, t.flash.wordAt (a + BitVec.ofNat 32 (2 * k)) = ws[k]?) ∧
    (ws.length = s.cfg.maxProgSize → exec (.writeMaxProgSize a ws) s = .next t →
      ∀ k < ws.length, t.flash.wordAt (a + BitVec.ofNat 32 (2 * k)) =
        if a = 0#32 ∧ k = 0 then some s.cfg.jump0 else if a = 0#32 ∧ k = 1 then some s.cfg.jump1 else ws[k]?)

/-- WRITE_MAX_PROG_SIZE: rejected in the boot region; otherwise `MAX_PROG_SIZE/ROW_SIZE` row requests in ascending
order, with the jump pair in the place of the first two words when the address is 0. Rests on D8, D14 and D28; the
`flash` clause is the reference model's (D19, log 5). -/
def Obligations.WriteMaxProgSizeEffect : Prop :=
  ∀ (a : Addr) (ws : List Word) (s : State), ws.length = s.cfg.maxProgSize →
    (∀ (lo hi : Byte) (A : List Byte), decodePayload s.cfg (lo :: hi :: 0x31#8 :: A) =
      if A.length < 4 + 4 * s.cfg.maxProgSize then .error (.shortArgs 0x31#8 A.length)
      else .ok (.writeMaxProgSize (le32 A 0) ((List.range s.cfg.maxProgSize).map fun k => le32 A (4 + 4 * k)))) ∧
    (s.cfg.bootBase ≤ a ∧ a < s.cfg.bootEnd →
      exec (.writeMaxProgSize a ws) s = .next { s with trace := s.trace ++ [.discard (.protection a)] }) ∧
    (¬ (s.cfg.bootBase ≤ a ∧ a < s.cfg.bootEnd) →
      ∃ (vs : List Word) (rows : List (Addr × List Word)),
        (a = 0#32 → vs = [s.cfg.jump0, s.cfg.jump1] ++ ws.drop 2) ∧ (a ≠ 0#32 → vs = ws) ∧
        rows = (List.range (s.cfg.maxProgSize / s.cfg.rowSize)).map (fun r =>
          (a + BitVec.ofNat 32 (2 * (r * s.cfg.rowSize)),
            (vs.drop (r * s.cfg.rowSize)).take s.cfg.rowSize)) ∧
        exec (.writeMaxProgSize a ws) s = .next { s with
          trace := s.trace ++ rows.map (fun r => .writeRow r.1 r.2)
          flash := rows.foldl (fun f r => f.writeWords r.1 r.2) s.flash })

/-- The rows of a bulk write are whole: each has `ROW_SIZE` words, and one after the other they are the words sent
(R248; legal configurations, D28). -/
def Obligations.BulkRowsCoverTheWords : Prop :=
  ∀ (c : Cfg) (a : Addr) (ws : List Word), c.Legal → ws.length = c.maxProgSize → a ≠ 0#32 →
    (∀ r ∈ bulkRows c a (forceJumpPair c a ws), r.2.length = c.rowSize) ∧
    (bulkRows c a (forceJumpPair c a ws)).flatMap Prod.snd = ws

/-- START_APP (R249): the jump to `APP_START_ADDR`, then RUN_APPLICATION. At the end marker of its frame the liveness
pulse precedes the jump, nothing is wiped, and no step follows it. -/
def Obligations.StartAppEffect : Prop :=
  ∀ s : State,
    (∀ (lo hi : Byte) (A : List Byte), decodePayload s.cfg (lo :: hi :: 0x40#8 :: A) = .ok .startApp) ∧
    exec .startApp s = .next { s with
      trace := s.trace ++ [.jumpToApplication s.cfg.appStartAddr]
      mode := .runApplication } ∧
    (s.cfg.Legal → 2 ≤ s.i → s.i ≤ s.cfg.cap → cksumOk s = true →
      decodePayload s.cfg (payload s) = .ok .startApp →
      ∃ t, exec .endMarker s = .next t ∧ (∀ u, step t ≠ .next u) ∧ t = { s with
        pstate := .endOfMessage
        trace := s.trace ++ [.live, .jumpToApplication s.cfg.appStartAddr]
        mode := .runApplication })

/-- Each of the 242 codes of R109 is an unknown command, no other code is, and performing one is a no-op with no reply
that records E5 with the code (R214, R301). -/
def Obligations.UnknownCodesAreNoOps : Prop :=
  (∀ (c : Cfg) (lo hi code : Byte) (A : List Byte),
    decodePayload c (lo :: hi :: code :: A) = .ok (.unknown code) ↔
      (0x08 ≤ code.toNat ∧ code.toNat ≤ 0x0F) ∨ (0x11 ≤ code.toNat ∧ code.toNat ≤ 0x1F) ∨
      (0x22 ≤ code.toNat ∧ code.toNat ≤ 0x2F) ∨ (0x32 ≤ code.toNat ∧ code.toNat ≤ 0x3F) ∨
      (0x41 ≤ code.toNat ∧ code.toNat ≤ 0xFF)) ∧
  (∀ (code : Byte) (s : State),
    exec (.unknown code) s = .next { s with trace := s.trace ++ [.discard (.unknownCommand code)] })

/-! ### Protection -/

/-- Invariant (a) as the spec holds it (R250): at an address in the boot region ERASE_PAGE, WRITE_ROW and
WRITE_MAX_PROG_SIZE complete without a port event and leave flash as it was. -/
def Obligations.BootRegionCommandsAreSilent : Prop :=
  ∀ (i : Instr) (a : Addr) (ws : List Word) (s : State), s.cfg.bootBase ≤ a → a < s.cfg.bootEnd →
    i ∈ [Instr.erasePage a, .writeRow a ws, .writeMaxProgSize a ws] →
    ∃ t, exec i s = .next t ∧ portTrace t = portTrace s ∧ t.flash = s.flash ∧
      t.trace = s.trace ++ [.discard (.protection a)]

/-- Invariant (b) (R251): WRITE_ROW below `IVT_BASE` completes without a port event, in the boot region or not. -/
def Obligations.RowsBelowIvtAreSilent : Prop :=
  ∀ (a : Addr) (ws : List Word) (s : State), a < s.cfg.ivtBase →
    ∃ t, exec (.writeRow a ws) s = .next t ∧ portTrace t = portTrace s ∧ t.flash = s.flash

/-- Invariant (c) (R252, property S6): under the reference flash model (D19), after an accepted ERASE_PAGE(0) or
WRITE_MAX_PROG_SIZE(0, ws) addresses 0 and 2 hold the jump pair, whatever the words sent. -/
def Obligations.ResetVectorSelfHeals : Prop :=
  ∀ (s : State) (ws : List Word) (d : Word) (m : WordMemory),
    s.cfg.Legal → s.flash = .reference d m → s.flash.wf = true → inBoot s.cfg 0#32 = false →
    ws.length = s.cfg.maxProgSize →
    (∃ t, exec (.erasePage 0#32) s = .next t ∧
      t.flash.wordAt 0#32 = some s.cfg.jump0 ∧ t.flash.wordAt 2#32 = some s.cfg.jump1) ∧
    (∃ t, exec (.writeMaxProgSize 0#32 ws) s = .next t ∧
      t.flash.wordAt 0#32 = some s.cfg.jump0 ∧ t.flash.wordAt 2#32 = some s.cfg.jump1)

/-- No run makes an erase request whose address lies in the boot region: a step keeps the trace free of one (R242,
R250). -/
def Obligations.StepKeepsErasesOutsideBoot : Prop :=
  ∀ s t : State, ErasesOutsideBoot s → step s = .next t → ErasesOutsideBoot t

/-! ### Receiver -/

/-- In WAIT_FOR_START the start marker opens a frame and every other byte is noise that changes nothing (R181, E1). -/
def Obligations.WaitForStartRule : Prop :=
  ∀ (s : State) (b : Byte), s.pstate = .waitForStart →
    (b = 0xF7#8 → decode s.cfg (.wire s.pstate) [b] = .ok .startMarker) ∧
    (b ≠ 0xF7#8 → decode s.cfg (.wire s.pstate) [b] = .ok (.noise b)) ∧
    exec .startMarker s = .next { s with pstate := .readVerbatim } ∧
    exec (.noise b) s = .next { s with trace := s.trace ++ [.discard (.framingNoise b)] }

/-- In READ_VERBATIM the escape marker leads to READ_ESCAPED and stores nothing (R182). -/
def Obligations.EscapeMarkerRule : Prop :=
  ∀ s : State, s.pstate = .readVerbatim →
    decode s.cfg (.wire s.pstate) [0xF6#8] = .ok .escapeMarker ∧
    exec .escapeMarker s = .next { s with pstate := .readEscaped }

/-- In READ_VERBATIM every byte but the escape and end markers, the start marker included, is stored at the cursor; the
store that fills the buffer wipes the receiver and records E3. Rests on D11. -/
def Obligations.DataByteRule : Prop :=
  ∀ (s : State) (b : Byte), s.buf.wf = true → s.i < s.cfg.cap →
    (s.pstate = .readVerbatim → b ≠ 0xF6#8 → b ≠ 0x7F#8 →
      decode s.cfg (.wire s.pstate) [b] = .ok (.data b)) ∧
    (s.i + 1 ≠ s.cfg.cap → ∃ m : Memory, m.wf = true ∧
      (∀ k, m.read k = if k = s.i then b else s.buf.read k) ∧
      exec (.data b) s = .next { s with buf := m, i := s.i + 1 }) ∧
    (s.i + 1 = s.cfg.cap → exec (.data b) s = .next { s with
      buf := [], i := 0, pstate := .waitForStart, trace := s.trace ++ [.discard .overflow] })

/-- In READ_ESCAPED every byte `b` is stored as `b XOR 0x20`, markers included, and the parser returns to READ_VERBATIM;
the store that fills the buffer wipes the receiver and records E3. Rests on D11. -/
def Obligations.EscapedByteRule : Prop :=
  ∀ (s : State) (b : Byte), s.buf.wf = true → s.i < s.cfg.cap →
    (s.pstate = .readEscaped → decode s.cfg (.wire s.pstate) [b] = .ok (.escapedByte b)) ∧
    (s.i + 1 ≠ s.cfg.cap → ∃ m : Memory, m.wf = true ∧
      (∀ k, m.read k = if k = s.i then b ^^^ 0x20#8 else s.buf.read k) ∧
      exec (.escapedByte b) s = .next { s with buf := m, i := s.i + 1, pstate := .readVerbatim }) ∧
    (s.i + 1 = s.cfg.cap → exec (.escapedByte b) s = .next { s with
      buf := [], i := 0, pstate := .waitForStart, trace := s.trace ++ [.discard .overflow] })

/-- The end marker of a frame that is not dispatched: a short frame (E7) or a checksum that does not match (E2) is
discarded without liveness or reply, and the receiver is wiped. Rests on D12. -/
def Obligations.UndispatchedFrameRule : Prop :=
  ∀ s : State, s.mode = .bootWait → s.i ≤ s.cfg.cap →
    (s.i < 2 → exec .endMarker s = .next { s with
      buf := [], i := 0, pstate := .waitForStart, trace := s.trace ++ [.discard (.shortFrame s.i)] }) ∧
    (2 ≤ s.i →
      compute ((List.range (s.i - 2)).map s.buf.read) (s.i - 2) ≠ s.buf.read (s.i - 1) ++ s.buf.read (s.i - 2) →
      exec .endMarker s = .next { s with
        buf := [], i := 0, pstate := .waitForStart, trace := s.trace ++ [.discard .checksumMismatch] })

/-- The end marker of a frame whose checksum matches: liveness first (D26), then the dispatch of the bytes before the
checksum, then the wipe; a payload with no command (E8) or too few arguments (E6) is dropped, a command is performed as
`exec` performs it, and the wipe follows unless the command left BOOT_WAIT. -/
def Obligations.VerifiedFrameRule : Prop :=
  ∀ s : State, s.mode = .bootWait → s.i ≤ s.cfg.cap → 2 ≤ s.i →
    compute ((List.range (s.i - 2)).map s.buf.read) (s.i - 2) = s.buf.read (s.i - 1) ++ s.buf.read (s.i - 2) →
    (∀ n, decodePayload s.cfg ((List.range (s.i - 2)).map s.buf.read) = .error (.noCommand n) →
      exec .endMarker s = .next { s with
        buf := [], i := 0, pstate := .waitForStart, trace := s.trace ++ [.live, .discard (.noCommand n)] }) ∧
    (∀ code n, decodePayload s.cfg ((List.range (s.i - 2)).map s.buf.read) = .error (.shortArgs code n) →
      exec .endMarker s = .next { s with
        buf := [], i := 0, pstate := .waitForStart, trace := s.trace ++ [.live, .discard (.shortArgs code n)] }) ∧
    (∀ k t, decodePayload s.cfg ((List.range (s.i - 2)).map s.buf.read) = .ok k →
      exec k.toInstr { s with pstate := .endOfMessage, trace := s.trace ++ [.live] } = .next t →
      exec .endMarker s = .next
        (if t.mode = .bootWait then { t with buf := [], i := 0, pstate := .waitForStart } else t))

/-- An end marker always completes when the sink accepts every byte. After the end-of-frame handling, matched or not,
the receiver is wiped; the one exception is START_APP, which leaves
`pstate = END_OF_MESSAGE` with `Buf` and `i` as they were. -/
def Obligations.EndOfFrameWipes : Prop :=
  (∀ s : State, s.i ≤ s.cfg.cap → s.txAccepts = none → ∃ t, exec .endMarker s = .next t) ∧
  ∀ s t : State, s.mode = .bootWait → exec .endMarker s = .next t →
    (t.mode = .bootWait ∧ t.pstate = .waitForStart ∧ t.i = 0 ∧ ∀ k, t.buf.read k = 0#8) ∨
    (t.mode = .runApplication ∧ t.pstate = .endOfMessage ∧ t.i = s.i ∧ t.buf = s.buf ∧
      decodePayload s.cfg (payload s) = .ok .startApp)

/-- A frame of a command and its data, delivered byte by byte to a waiting receiver, is verified, and the dispatcher is
handed exactly `bytes16(|data|) ++ [cmd] ++ data` (R165, property S1), escaped bytes included. Stated of the steps of
the machine: all but the last raw byte are taken in the steps before; the step that takes the end marker is the
dispatch of that payload and what follows it. -/
def Obligations.FrameRoundTrip : Prop :=
  ∀ (s : State) (cmd : Byte) (data : List Byte) (rest : List (Option Byte)),
    s.cfg.Legal → s.mode = .bootWait → s.phase = .drain → s.pstate = .waitForStart → s.i = 0 → s.buf = [] →
    3 + data.length + 2 < s.cfg.cap → s.rx = (rawFrame cmd data).map some ++ rest →
    ∃ t : State,
      runSteps ((rawFrame cmd data).length - 1) s = .next t ∧
      t = { s with
        pstate := .readVerbatim, i := data.length + 5, buf := t.buf, rx := some 0x7F#8 :: rest
        trace := s.trace ++ ((rawFrame cmd data).dropLast).map .rx } ∧
      cksumOk t = true ∧ payload t = bytes16 (BitVec.ofNat 16 data.length) ++ [cmd] ++ data ∧
      step t = andThen
        (dispatch (bytes16 (BitVec.ofNat 16 data.length) ++ [cmd] ++ data)
          { t with rx := rest, pstate := .endOfMessage, trace := t.trace ++ [.rx 0x7F#8, .live] })
        finishFrame

/-- Two end markers in a row bring the receiver to WAIT_FOR_START from any state it can be in between steps (R339); the
frame they end may, if its checksum matches, start the application instead. -/
def Obligations.TwoEndMarkersResynchronise : Prop :=
  ∀ (s t u : State) (rest : List (Option Byte)), Inv s → s.mode = .bootWait → s.phase = .drain →
    s.rx = some 0x7F#8 :: some 0x7F#8 :: rest → step s = .next t → step t = .next u →
    (u.mode = .bootWait ∧ u.pstate = .waitForStart ∧ u.i = 0) ∨
    (u.mode = .runApplication ∧ u.trace.getLast? = some (.jumpToApplication s.cfg.appStartAddr))

/-! ### Error causes -/

/-- No cause produces a port event (R302): a step that records a discard records it last and only it, after the byte it
took; the liveness pulse stands between the two for E4, E5, E6 and E8, and is withheld for the others. -/
def Obligations.CausesAreSilent : Prop :=
  ∀ (s t : State) (es : List Event) (r : DiscardReason), step s = .next t → t.trace = s.trace ++ es →
    Event.discard r ∈ es →
    ((r.number = 4 ∨ r.number = 5 ∨ r.number = 6 ∨ r.number = 8) → ∃ b, es = [.rx b, .live, .discard r]) ∧
    ((r.number = 1 ∨ r.number = 2 ∨ r.number = 3 ∨ r.number = 7) → ∃ b, es = [.rx b, .discard r])

/-- From a state of the invariant a step of a running, legally configured block whose sink accepts every byte always
answers a next state: no error stops it (R300). -/
def Obligations.BlockNeverTraps : Prop :=
  ∀ s : State, s.cfg.Legal → Inv s → s.mode ≠ .runApplication → s.txAccepts = none → ∃ t, step s = .next t

/-- Overflow safety (R194): from a state of the invariant no step addresses the buffer at or above CAP, nor begins a
byte step in END_OF_MESSAGE, whatever bytes arrive and whatever the sink does. -/
def Obligations.BufferNeverOverrun : Prop :=
  ∀ s : State, Inv s → step s ≠ .fault .bufferBound ∧ step s ≠ .fault .endOfMessageAtReceive

/-! ### Session -/

/-- The startup decision: ENTER is read once; true leads to BOOT_WAIT, false to the application (R281). The branch for
false is the spec's own choice, D21. -/
def Obligations.StartupDecisionRule : Prop :=
  ∀ s : State, s.cfg.Legal → s.mode = .init →
    (s.enter = true → step s = .next { s with
      trace := s.trace ++ [.enter true], mode := .bootWait, phase := .service }) ∧
    (s.enter = false → step s = .next { s with
      trace := s.trace ++ [.enter false, .jumpToApplication s.cfg.appStartAddr], mode := .runApplication })

/-- A loop iteration: the watchdog, the drain until RX yields no byte, the abort poll, in the order of D22 (R282); an
exhausted list of answers is "no byte" and "false" (log 3). -/
def Obligations.LoopIterationRule : Prop :=
  ∀ s : State, s.cfg.Legal → s.mode = .bootWait →
    (s.phase = .service → step s = .next { s with trace := s.trace ++ [.wdt], phase := .drain }) ∧
    (s.phase = .drain → s.rx = [] → step s = .next { s with phase := .poll }) ∧
    (∀ l, s.phase = .drain → s.rx = none :: l → step s = .next { s with rx := l, phase := .poll }) ∧
    (s.phase = .poll → s.abort = [] →
      step s = .next { s with trace := s.trace ++ [.abort false], phase := .service }) ∧
    (∀ l, s.phase = .poll → s.abort = false :: l →
      step s = .next { s with trace := s.trace ++ [.abort false], abort := l, phase := .service })

/-- An ABORT poll that answers true transfers control through the application entry address; a partial frame is
abandoned with its bytes still in `Buf` (R284). -/
def Obligations.AbortLeavesPartialFrame : Prop :=
  ∀ (s : State) (l : List Bool), s.cfg.Legal → s.mode = .bootWait → s.phase = .poll → s.abort = true :: l →
    step s = .next { s with
      abort := l
      trace := s.trace ++ [.abort true, .jumpToApplication s.cfg.appStartAddr]
      mode := .runApplication }

/-- RUN_APPLICATION is terminal, and it is reached only by the startup decision, the abort poll or START_APP (R286). -/
def Obligations.RunApplicationIsTerminal : Prop :=
  (∀ s t : State, s.mode = .runApplication → step s ≠ .next t) ∧
  (∀ s t : State, step s = .next t → t.mode = .runApplication →
    (s.mode = .init ∧ s.enter = false) ∨
    (s.mode = .bootWait ∧ s.phase = .poll ∧ s.abort.head? = some true) ∨
    (s.mode = .bootWait ∧ s.phase = .drain ∧ s.rx.head? = some (some 0x7F#8) ∧ s.pstate = .readVerbatim ∧
      cksumOk s = true ∧ decodePayload s.cfg (payload s) = .ok .startApp))

/-- Where a step stops, from a state of the invariant under a legal configuration, and by what name, both the model's
form of "no step" (log 6, log 7): in RUN_APPLICATION, always, and on a sink that refuses, nowhere else. -/
def Obligations.StopsOfTheStep : Prop :=
  ∀ s : State, s.cfg.Legal → Inv s →
    (s.mode = .runApplication → step s = .fault .terminated) ∧
    (∀ r, step s = .fault r → (r = .terminated ∧ s.mode = .runApplication) ∨
      ((∃ tr, r = .sinkBlocked tr) ∧ s.txAccepts ≠ none ∧ s.mode = .bootWait ∧ s.phase = .drain ∧
        s.rx.head? = some (some 0x7F#8) ∧ s.pstate = .readVerbatim ∧ cksumOk s = true))

/-- The jump ends the trace: a step keeps "no jump while the block runs; once it has left, one jump, last, to
`APP_START_ADDR`" (R286, R287). -/
def Obligations.StepKeepsJumpLast : Prop :=
  ∀ s t : State, JumpEndsTrace s → step s = .next t → JumpEndsTrace t

/-- At reset no jump has been made and no page erased, under every configuration (R45: empty trace). -/
def Obligations.ResetTraceIsClean : Prop :=
  ∀ c : Cfg, JumpEndsTrace (State.resetWith c) ∧ ErasesOutsideBoot (State.resetWith c)

/-- What reset leaves in the block (R45, R330), under every configuration, and that every reset of the block gives that
state again, whatever the block was doing, with the configuration kept. The numeric values are the spec's own choice,
D20; that flash and the bytes on RX are as they were is the model's, log 16. -/
def Obligations.ResetState : Prop :=
  (∀ c : Cfg, ∃ s, State.resetWith c = s ∧ s.cfg = c ∧ s.mode = .init ∧ s.pstate = .waitForStart ∧ s.i = 0 ∧
    (∀ k, s.buf.read k = 0#8) ∧ s.sum1 = 0#8 ∧ s.sum2 = 0#8 ∧ s.trace = []) ∧
  (∀ s : State, ∃ t, s.resetBlock = t ∧ t.cfg = s.cfg ∧ t.mode = .init ∧ t.pstate = .waitForStart ∧ t.i = 0 ∧
    (∀ k, t.buf.read k = 0#8) ∧ t.sum1 = 0#8 ∧ t.sum2 = 0#8 ∧ t.trace = [] ∧ t.flash = s.flash ∧ t.rx = s.rx)

/-- A reset at any moment of any step, also of one that is stuck, gives the reset state of the block with the
configuration and ENTER kept (R330, R45; D20), and a state of the invariant when it falls in one. That the rest of the
environment is as the events before the reset left it is the model's choice, log 16 and log 20. -/
def Obligations.ResetAtAnyMoment : Prop :=
  ∀ (k : Nat) (s : State), ∃ t, s.resetWithin k = t ∧ t.cfg = s.cfg ∧ t.mode = .init ∧ t.pstate = .waitForStart ∧
    t.i = 0 ∧ (∀ a, t.buf.read a = 0#8) ∧ t.sum1 = 0#8 ∧ t.sum2 = 0#8 ∧ t.trace = [] ∧ t.enter = s.enter ∧
    (Inv s → Inv t)

/-- The window of ERASE_PAGE(0) (R338), under the reference flash model (D19; log 20): the step that takes the end marker
of such a frame has four events, the re-write next after the erase; a reset before the erase leaves flash as it was,
one between the two leaves the reset vector erased, one after them leaves the jump pair. -/
def Obligations.ResetWindowErasesVector : Prop :=
  ∀ (s : State) (d : Word) (m : WordMemory) (rest : List (Option Byte)),
    s.cfg.Legal → s.mode = .bootWait → s.phase = .drain → s.pstate = .readVerbatim → s.rx = some 0x7F#8 :: rest →
    2 ≤ s.i → s.i ≤ s.cfg.cap → cksumOk s = true → decodePayload s.cfg (payload s) = .ok (.erasePage 0#32) →
    inBoot s.cfg 0#32 = false → s.flash = .reference d m → s.flash.wf = true →
    stepEvents s = [.rx 0x7F#8, .live, .erasePage 0#32, .writeDoubleWord 0#32 s.cfg.jump0 s.cfg.jump1] ∧
    (∀ k ≤ 2, (s.resetWithin k).flash = s.flash) ∧
    (1 ≤ s.cfg.pageSize → (s.resetWithin 3).flash.wordAt 0#32 = some d) ∧
    (2 ≤ s.cfg.pageSize → (s.resetWithin 3).flash.wordAt 2#32 = some d) ∧
    (∀ k, 4 ≤ k → (s.resetWithin k).flash.wordAt 0#32 = some s.cfg.jump0 ∧
      (s.resetWithin k).flash.wordAt 2#32 = some s.cfg.jump1)

/-- What a reset inside a step keeps agrees with the step: all the events of a step, replayed, leave the flash agent,
the sink and ENTER as the step leaves them, and the inputs too unless the step is a poll that found no byte, which is no
event (R42; log 20). -/
def Obligations.ReplayAgreesWithStep : Prop :=
  ∀ (s t : State) (es : List Event), step s = .next t → t.trace = s.trace ++ es →
    (replay es s).flash = t.flash ∧ (replay es s).txAccepts = t.txAccepts ∧ (replay es s).enter = t.enter ∧
    (es ≠ [] → (replay es s).rx = t.rx ∧ (replay es s).abort = t.abort)

/-- The block leaves RUN_APPLICATION only by a reset, and by every reset (R332). -/
def Obligations.OnlyResetLeavesApplication : Prop :=
  (∀ s t : State, s.mode = .runApplication → Moves s t → t = s.resetBlock ∧ t.mode = .init) ∧
  (∀ s : State, s.mode = .runApplication → Moves s s.resetBlock)

/-! ### Invariants and frames -/

/-- The invariant (R46, and the canonical form of both memories) holds right after reset, under every configuration. -/
def Obligations.InvariantAtReset : Prop := ∀ c : Cfg, Inv (State.resetWith c)

/-- Every step keeps the invariant: between two steps in BOOT_WAIT the parser is in one of its three states, waiting
means an empty buffer, the cursor is below CAP, and every byte at or above it is zero (R46). -/
def Obligations.StepKeepsInvariant : Prop := ∀ s t : State, Inv s → step s = .next t → Inv t

/-- The configuration is read-only: no step changes a field of it (R39). -/
def Obligations.ConfigurationIsReadOnly : Prop := ∀ s t : State, step s = .next t → t.cfg = s.cfg

/-- The trace only grows, and a step takes at most one byte from RX, before everything else it does: no byte is taken
between the first and the last byte of a reply, nor during a dispatch (R42, R85, R13). -/
def Obligations.ByteTakenFirst : Prop :=
  ∀ s t : State, step s = .next t → ∃ es, t.trace = s.trace ++ es ∧ (es.drop 1).all (fun e => !e.isRx) = true

/-- No command reads or writes the receiver: performing any leaves `pstate`, `i`, `Buf`, the place in the loop and the
inputs as they were, only START_APP writes `mode`; and performed with another receiver it does the same, stop or events,
and differs in the receiver only (R36). -/
def Obligations.CommandsLeaveReceiverAlone : Prop :=
  (∀ (k : Command) (s t : State), exec k.toInstr s = .next t →
    t.cfg = s.cfg ∧ t.pstate = s.pstate ∧ t.i = s.i ∧ (∀ a, t.buf.read a = s.buf.read a) ∧ t.phase = s.phase ∧
    t.rx = s.rx ∧ t.enter = s.enter ∧ t.abort = s.abort ∧ (k ≠ .startApp → t.mode = s.mode)) ∧
  (∀ (k : Command) (s : State) (p : PState) (n : Nat) (b : Memory),
    exec k.toInstr { s with pstate := p, i := n, buf := b } =
      andThen (exec k.toInstr s) fun t => .next { t with pstate := p, i := n, buf := b })

/-- The frame of the replying commands: a query changes the sums, the trace and the sink's bound only; a read also the
agent's read count, but no word of flash. -/
def Obligations.ReplyingCommandsFrame : Prop :=
  ∀ (i : Instr) (a : Addr) (s t : State),
    i ∈ [Instr.readPlatform, .readVersion, .readRowLen, .readPageLen, .readProgLen, .readMaxProgSize,
      .readAppStartAddr, .readBootStartAddr, .readAddr a, .readMax a] →
    exec i s = .next t →
    t.cfg = s.cfg ∧ t.mode = s.mode ∧ t.pstate = s.pstate ∧ t.i = s.i ∧ (∀ k, t.buf.read k = s.buf.read k) ∧
    t.phase = s.phase ∧ t.rx = s.rx ∧ t.enter = s.enter ∧ t.abort = s.abort ∧
    (∀ b, t.flash.wordAt b = s.flash.wordAt b) ∧
    (i ≠ .readAddr a → i ≠ .readMax a → t.flash = s.flash)

/-- The frame of the flash-writing commands, under the reference flash model (D19): the block's own state is unchanged
but for the trace; an accepted ERASE_PAGE(a) changes no word outside `[p, p + PAGE_SIZE*ADDR_STEP)` and, for address 0,
the two words of the jump pair; an accepted write of `n` words at `a` changes no word but those at
`(a + k*ADDR_STEP) mod 2^32`, `k < n`. -/
def Obligations.FlashWritingCommandsFrame : Prop :=
  ∀ (i : Instr) (a : Addr) (ws : List Word) (s t : State), s.cfg.Legal → s.flash.wf = true →
    i ∈ [Instr.erasePage a, .writeRow a ws, .writeMaxProgSize a ws] → i.wellFormed s.cfg = true →
    exec i s = .next t →
    t = { s with trace := t.trace, flash := t.flash } ∧
    (i = .erasePage a → ∀ b : Addr,
      ¬ (a.toNat - a.toNat % (s.cfg.pageSize * 2) ≤ b.toNat ∧
        b.toNat < a.toNat - a.toNat % (s.cfg.pageSize * 2) + s.cfg.pageSize * 2) →
      ¬ (a = 0#32 ∧ (b = 0#32 ∨ b = 2#32)) →
      t.flash.wordAt b = s.flash.wordAt b) ∧
    (i ≠ .erasePage a → ∀ b : Addr, (∀ k < ws.length, b ≠ a + BitVec.ofNat 32 (2 * k)) →
      t.flash.wordAt b = s.flash.wordAt b)

/-- The frame of the wire classes: a byte of a frame that does not end it changes nothing outside the receiver and the
trace, and of `Buf` at most the byte at the cursor unless the overflow guard wipes it. -/
def Obligations.WireClassesFrame : Prop :=
  ∀ (i : Instr) (b : Byte) (s t : State), s.buf.wf = true →
    i ∈ [Instr.startMarker, .noise b, .escapeMarker, .data b, .escapedByte b] → exec i s = .next t →
    t = { s with pstate := t.pstate, i := t.i, buf := t.buf, trace := t.trace } ∧
    ((t.i = s.i ∧ ∀ k, t.buf.read k = s.buf.read k) ∨
     (t.i = s.i + 1 ∧ ∀ k, k ≠ s.i → t.buf.read k = s.buf.read k) ∨
     (t.i = 0 ∧ s.i + 1 = s.cfg.cap ∧ t.pstate = .waitForStart ∧ ∀ k, t.buf.read k = 0#8))

/-! ### The step -/

/-- A step in the drain takes the next byte, decodes it in the parser state and runs exactly that instruction, after
the event `rx(b)` (R180, R193). -/
def Obligations.StepRunsTheDecodedInstruction : Prop :=
  ∀ (s : State) (b : Byte) (l : List (Option Byte)) (i : Instr), s.cfg.Legal → s.mode = .bootWait →
    s.phase = .drain → s.rx = some b :: l → decode s.cfg (.wire s.pstate) [b] = .ok i →
    step s = exec i { s with rx := l, trace := s.trace ++ [.rx b] }

/-- The configuration is checked before anything else: an illegal one is refused, a legal one never (R8, D28). -/
def Obligations.IllegalConfigurationRefused : Prop :=
  ∀ s : State, (¬ s.cfg.Legal → step s = .refused .illegalConfiguration) ∧
    (s.cfg.Legal → ∀ r, step s ≠ .refused r)
end

