-- ==== Sys2Proof/Laws/State.lean ====
section
/-! SUPPORT. One lemma for each field of `State` and each single-field update, true by definition, so that no proof
unfolds a record update. -/

namespace Sys2Proof.Machine

@[simp] theorem State.emit_cfg (e : Event) (s : State) : (s.emit e).cfg = s.cfg := rfl
@[simp] theorem State.emit_mode (e : Event) (s : State) : (s.emit e).mode = s.mode := rfl
@[simp] theorem State.emit_pstate (e : Event) (s : State) : (s.emit e).pstate = s.pstate := rfl
@[simp] theorem State.emit_i (e : Event) (s : State) : (s.emit e).i = s.i := rfl
@[simp] theorem State.emit_buf (e : Event) (s : State) : (s.emit e).buf = s.buf := rfl
@[simp] theorem State.emit_sum1 (e : Event) (s : State) : (s.emit e).sum1 = s.sum1 := rfl
@[simp] theorem State.emit_sum2 (e : Event) (s : State) : (s.emit e).sum2 = s.sum2 := rfl
@[simp] theorem State.emit_trace (e : Event) (s : State) : (s.emit e).trace = s.trace ++ [e] := rfl
@[simp] theorem State.emit_phase (e : Event) (s : State) : (s.emit e).phase = s.phase := rfl
@[simp] theorem State.emit_rx (e : Event) (s : State) : (s.emit e).rx = s.rx := rfl
@[simp] theorem State.emit_enter (e : Event) (s : State) : (s.emit e).enter = s.enter := rfl
@[simp] theorem State.emit_abort (e : Event) (s : State) : (s.emit e).abort = s.abort := rfl
@[simp] theorem State.emit_txAccepts (e : Event) (s : State) : (s.emit e).txAccepts = s.txAccepts := rfl
@[simp] theorem State.emit_flash (e : Event) (s : State) : (s.emit e).flash = s.flash := rfl

@[simp] theorem State.emitAll_cfg (es : List Event) (s : State) : (s.emitAll es).cfg = s.cfg := rfl
@[simp] theorem State.emitAll_mode (es : List Event) (s : State) : (s.emitAll es).mode = s.mode := rfl
@[simp] theorem State.emitAll_pstate (es : List Event) (s : State) : (s.emitAll es).pstate = s.pstate := rfl
@[simp] theorem State.emitAll_i (es : List Event) (s : State) : (s.emitAll es).i = s.i := rfl
@[simp] theorem State.emitAll_buf (es : List Event) (s : State) : (s.emitAll es).buf = s.buf := rfl
@[simp] theorem State.emitAll_sum1 (es : List Event) (s : State) : (s.emitAll es).sum1 = s.sum1 := rfl
@[simp] theorem State.emitAll_sum2 (es : List Event) (s : State) : (s.emitAll es).sum2 = s.sum2 := rfl
@[simp] theorem State.emitAll_trace (es : List Event) (s : State) : (s.emitAll es).trace = s.trace ++ es := rfl
@[simp] theorem State.emitAll_phase (es : List Event) (s : State) : (s.emitAll es).phase = s.phase := rfl
@[simp] theorem State.emitAll_rx (es : List Event) (s : State) : (s.emitAll es).rx = s.rx := rfl
@[simp] theorem State.emitAll_enter (es : List Event) (s : State) : (s.emitAll es).enter = s.enter := rfl
@[simp] theorem State.emitAll_abort (es : List Event) (s : State) : (s.emitAll es).abort = s.abort := rfl
@[simp] theorem State.emitAll_txAccepts (es : List Event) (s : State) : (s.emitAll es).txAccepts = s.txAccepts := rfl
@[simp] theorem State.emitAll_flash (es : List Event) (s : State) : (s.emitAll es).flash = s.flash := rfl

@[simp] theorem State.withMode_cfg (m : Mode) (s : State) : (s.withMode m).cfg = s.cfg := rfl
@[simp] theorem State.withMode_mode (m : Mode) (s : State) : (s.withMode m).mode = m := rfl
@[simp] theorem State.withMode_pstate (m : Mode) (s : State) : (s.withMode m).pstate = s.pstate := rfl
@[simp] theorem State.withMode_i (m : Mode) (s : State) : (s.withMode m).i = s.i := rfl
@[simp] theorem State.withMode_buf (m : Mode) (s : State) : (s.withMode m).buf = s.buf := rfl
@[simp] theorem State.withMode_sum1 (m : Mode) (s : State) : (s.withMode m).sum1 = s.sum1 := rfl
@[simp] theorem State.withMode_sum2 (m : Mode) (s : State) : (s.withMode m).sum2 = s.sum2 := rfl
@[simp] theorem State.withMode_trace (m : Mode) (s : State) : (s.withMode m).trace = s.trace := rfl
@[simp] theorem State.withMode_phase (m : Mode) (s : State) : (s.withMode m).phase = s.phase := rfl
@[simp] theorem State.withMode_rx (m : Mode) (s : State) : (s.withMode m).rx = s.rx := rfl
@[simp] theorem State.withMode_enter (m : Mode) (s : State) : (s.withMode m).enter = s.enter := rfl
@[simp] theorem State.withMode_abort (m : Mode) (s : State) : (s.withMode m).abort = s.abort := rfl
@[simp] theorem State.withMode_txAccepts (m : Mode) (s : State) : (s.withMode m).txAccepts = s.txAccepts := rfl
@[simp] theorem State.withMode_flash (m : Mode) (s : State) : (s.withMode m).flash = s.flash := rfl

@[simp] theorem State.withPState_cfg (p : PState) (s : State) : (s.withPState p).cfg = s.cfg := rfl
@[simp] theorem State.withPState_mode (p : PState) (s : State) : (s.withPState p).mode = s.mode := rfl
@[simp] theorem State.withPState_pstate (p : PState) (s : State) : (s.withPState p).pstate = p := rfl
@[simp] theorem State.withPState_i (p : PState) (s : State) : (s.withPState p).i = s.i := rfl
@[simp] theorem State.withPState_buf (p : PState) (s : State) : (s.withPState p).buf = s.buf := rfl
@[simp] theorem State.withPState_sum1 (p : PState) (s : State) : (s.withPState p).sum1 = s.sum1 := rfl
@[simp] theorem State.withPState_sum2 (p : PState) (s : State) : (s.withPState p).sum2 = s.sum2 := rfl
@[simp] theorem State.withPState_trace (p : PState) (s : State) : (s.withPState p).trace = s.trace := rfl
@[simp] theorem State.withPState_phase (p : PState) (s : State) : (s.withPState p).phase = s.phase := rfl
@[simp] theorem State.withPState_rx (p : PState) (s : State) : (s.withPState p).rx = s.rx := rfl
@[simp] theorem State.withPState_enter (p : PState) (s : State) : (s.withPState p).enter = s.enter := rfl
@[simp] theorem State.withPState_abort (p : PState) (s : State) : (s.withPState p).abort = s.abort := rfl
@[simp] theorem State.withPState_txAccepts (p : PState) (s : State) : (s.withPState p).txAccepts = s.txAccepts := rfl
@[simp] theorem State.withPState_flash (p : PState) (s : State) : (s.withPState p).flash = s.flash := rfl

@[simp] theorem State.withI_cfg (n : Nat) (s : State) : (s.withI n).cfg = s.cfg := rfl
@[simp] theorem State.withI_mode (n : Nat) (s : State) : (s.withI n).mode = s.mode := rfl
@[simp] theorem State.withI_pstate (n : Nat) (s : State) : (s.withI n).pstate = s.pstate := rfl
@[simp] theorem State.withI_i (n : Nat) (s : State) : (s.withI n).i = n := rfl
@[simp] theorem State.withI_buf (n : Nat) (s : State) : (s.withI n).buf = s.buf := rfl
@[simp] theorem State.withI_sum1 (n : Nat) (s : State) : (s.withI n).sum1 = s.sum1 := rfl
@[simp] theorem State.withI_sum2 (n : Nat) (s : State) : (s.withI n).sum2 = s.sum2 := rfl
@[simp] theorem State.withI_trace (n : Nat) (s : State) : (s.withI n).trace = s.trace := rfl
@[simp] theorem State.withI_phase (n : Nat) (s : State) : (s.withI n).phase = s.phase := rfl
@[simp] theorem State.withI_rx (n : Nat) (s : State) : (s.withI n).rx = s.rx := rfl
@[simp] theorem State.withI_enter (n : Nat) (s : State) : (s.withI n).enter = s.enter := rfl
@[simp] theorem State.withI_abort (n : Nat) (s : State) : (s.withI n).abort = s.abort := rfl
@[simp] theorem State.withI_txAccepts (n : Nat) (s : State) : (s.withI n).txAccepts = s.txAccepts := rfl
@[simp] theorem State.withI_flash (n : Nat) (s : State) : (s.withI n).flash = s.flash := rfl

@[simp] theorem State.withBuf_cfg (m : Memory) (s : State) : (s.withBuf m).cfg = s.cfg := rfl
@[simp] theorem State.withBuf_mode (m : Memory) (s : State) : (s.withBuf m).mode = s.mode := rfl
@[simp] theorem State.withBuf_pstate (m : Memory) (s : State) : (s.withBuf m).pstate = s.pstate := rfl
@[simp] theorem State.withBuf_i (m : Memory) (s : State) : (s.withBuf m).i = s.i := rfl
@[simp] theorem State.withBuf_buf (m : Memory) (s : State) : (s.withBuf m).buf = m := rfl
@[simp] theorem State.withBuf_sum1 (m : Memory) (s : State) : (s.withBuf m).sum1 = s.sum1 := rfl
@[simp] theorem State.withBuf_sum2 (m : Memory) (s : State) : (s.withBuf m).sum2 = s.sum2 := rfl
@[simp] theorem State.withBuf_trace (m : Memory) (s : State) : (s.withBuf m).trace = s.trace := rfl
@[simp] theorem State.withBuf_phase (m : Memory) (s : State) : (s.withBuf m).phase = s.phase := rfl
@[simp] theorem State.withBuf_rx (m : Memory) (s : State) : (s.withBuf m).rx = s.rx := rfl
@[simp] theorem State.withBuf_enter (m : Memory) (s : State) : (s.withBuf m).enter = s.enter := rfl
@[simp] theorem State.withBuf_abort (m : Memory) (s : State) : (s.withBuf m).abort = s.abort := rfl
@[simp] theorem State.withBuf_txAccepts (m : Memory) (s : State) : (s.withBuf m).txAccepts = s.txAccepts := rfl
@[simp] theorem State.withBuf_flash (m : Memory) (s : State) : (s.withBuf m).flash = s.flash := rfl

@[simp] theorem State.withSums_cfg (c1 c2 : Byte) (s : State) : (s.withSums c1 c2).cfg = s.cfg := rfl
@[simp] theorem State.withSums_mode (c1 c2 : Byte) (s : State) : (s.withSums c1 c2).mode = s.mode := rfl
@[simp] theorem State.withSums_pstate (c1 c2 : Byte) (s : State) : (s.withSums c1 c2).pstate = s.pstate := rfl
@[simp] theorem State.withSums_i (c1 c2 : Byte) (s : State) : (s.withSums c1 c2).i = s.i := rfl
@[simp] theorem State.withSums_buf (c1 c2 : Byte) (s : State) : (s.withSums c1 c2).buf = s.buf := rfl
@[simp] theorem State.withSums_sum1 (c1 c2 : Byte) (s : State) : (s.withSums c1 c2).sum1 = c1 := rfl
@[simp] theorem State.withSums_sum2 (c1 c2 : Byte) (s : State) : (s.withSums c1 c2).sum2 = c2 := rfl
@[simp] theorem State.withSums_trace (c1 c2 : Byte) (s : State) : (s.withSums c1 c2).trace = s.trace := rfl
@[simp] theorem State.withSums_phase (c1 c2 : Byte) (s : State) : (s.withSums c1 c2).phase = s.phase := rfl
@[simp] theorem State.withSums_rx (c1 c2 : Byte) (s : State) : (s.withSums c1 c2).rx = s.rx := rfl
@[simp] theorem State.withSums_enter (c1 c2 : Byte) (s : State) : (s.withSums c1 c2).enter = s.enter := rfl
@[simp] theorem State.withSums_abort (c1 c2 : Byte) (s : State) : (s.withSums c1 c2).abort = s.abort := rfl
@[simp] theorem State.withSums_txAccepts (c1 c2 : Byte) (s : State) : (s.withSums c1 c2).txAccepts = s.txAccepts := rfl
@[simp] theorem State.withSums_flash (c1 c2 : Byte) (s : State) : (s.withSums c1 c2).flash = s.flash := rfl

@[simp] theorem State.withPhase_cfg (p : Phase) (s : State) : (s.withPhase p).cfg = s.cfg := rfl
@[simp] theorem State.withPhase_mode (p : Phase) (s : State) : (s.withPhase p).mode = s.mode := rfl
@[simp] theorem State.withPhase_pstate (p : Phase) (s : State) : (s.withPhase p).pstate = s.pstate := rfl
@[simp] theorem State.withPhase_i (p : Phase) (s : State) : (s.withPhase p).i = s.i := rfl
@[simp] theorem State.withPhase_buf (p : Phase) (s : State) : (s.withPhase p).buf = s.buf := rfl
@[simp] theorem State.withPhase_sum1 (p : Phase) (s : State) : (s.withPhase p).sum1 = s.sum1 := rfl
@[simp] theorem State.withPhase_sum2 (p : Phase) (s : State) : (s.withPhase p).sum2 = s.sum2 := rfl
@[simp] theorem State.withPhase_trace (p : Phase) (s : State) : (s.withPhase p).trace = s.trace := rfl
@[simp] theorem State.withPhase_phase (p : Phase) (s : State) : (s.withPhase p).phase = p := rfl
@[simp] theorem State.withPhase_rx (p : Phase) (s : State) : (s.withPhase p).rx = s.rx := rfl
@[simp] theorem State.withPhase_enter (p : Phase) (s : State) : (s.withPhase p).enter = s.enter := rfl
@[simp] theorem State.withPhase_abort (p : Phase) (s : State) : (s.withPhase p).abort = s.abort := rfl
@[simp] theorem State.withPhase_txAccepts (p : Phase) (s : State) : (s.withPhase p).txAccepts = s.txAccepts := rfl
@[simp] theorem State.withPhase_flash (p : Phase) (s : State) : (s.withPhase p).flash = s.flash := rfl

@[simp] theorem State.withRx_cfg (l : List (Option Byte)) (s : State) : (s.withRx l).cfg = s.cfg := rfl
@[simp] theorem State.withRx_mode (l : List (Option Byte)) (s : State) : (s.withRx l).mode = s.mode := rfl
@[simp] theorem State.withRx_pstate (l : List (Option Byte)) (s : State) : (s.withRx l).pstate = s.pstate := rfl
@[simp] theorem State.withRx_i (l : List (Option Byte)) (s : State) : (s.withRx l).i = s.i := rfl
@[simp] theorem State.withRx_buf (l : List (Option Byte)) (s : State) : (s.withRx l).buf = s.buf := rfl
@[simp] theorem State.withRx_sum1 (l : List (Option Byte)) (s : State) : (s.withRx l).sum1 = s.sum1 := rfl
@[simp] theorem State.withRx_sum2 (l : List (Option Byte)) (s : State) : (s.withRx l).sum2 = s.sum2 := rfl
@[simp] theorem State.withRx_trace (l : List (Option Byte)) (s : State) : (s.withRx l).trace = s.trace := rfl
@[simp] theorem State.withRx_phase (l : List (Option Byte)) (s : State) : (s.withRx l).phase = s.phase := rfl
@[simp] theorem State.withRx_rx (l : List (Option Byte)) (s : State) : (s.withRx l).rx = l := rfl
@[simp] theorem State.withRx_enter (l : List (Option Byte)) (s : State) : (s.withRx l).enter = s.enter := rfl
@[simp] theorem State.withRx_abort (l : List (Option Byte)) (s : State) : (s.withRx l).abort = s.abort := rfl
@[simp] theorem State.withRx_txAccepts (l : List (Option Byte)) (s : State) : (s.withRx l).txAccepts = s.txAccepts := rfl
@[simp] theorem State.withRx_flash (l : List (Option Byte)) (s : State) : (s.withRx l).flash = s.flash := rfl

@[simp] theorem State.withAbort_cfg (l : List Bool) (s : State) : (s.withAbort l).cfg = s.cfg := rfl
@[simp] theorem State.withAbort_mode (l : List Bool) (s : State) : (s.withAbort l).mode = s.mode := rfl
@[simp] theorem State.withAbort_pstate (l : List Bool) (s : State) : (s.withAbort l).pstate = s.pstate := rfl
@[simp] theorem State.withAbort_i (l : List Bool) (s : State) : (s.withAbort l).i = s.i := rfl
@[simp] theorem State.withAbort_buf (l : List Bool) (s : State) : (s.withAbort l).buf = s.buf := rfl
@[simp] theorem State.withAbort_sum1 (l : List Bool) (s : State) : (s.withAbort l).sum1 = s.sum1 := rfl
@[simp] theorem State.withAbort_sum2 (l : List Bool) (s : State) : (s.withAbort l).sum2 = s.sum2 := rfl
@[simp] theorem State.withAbort_trace (l : List Bool) (s : State) : (s.withAbort l).trace = s.trace := rfl
@[simp] theorem State.withAbort_phase (l : List Bool) (s : State) : (s.withAbort l).phase = s.phase := rfl
@[simp] theorem State.withAbort_rx (l : List Bool) (s : State) : (s.withAbort l).rx = s.rx := rfl
@[simp] theorem State.withAbort_enter (l : List Bool) (s : State) : (s.withAbort l).enter = s.enter := rfl
@[simp] theorem State.withAbort_abort (l : List Bool) (s : State) : (s.withAbort l).abort = l := rfl
@[simp] theorem State.withAbort_txAccepts (l : List Bool) (s : State) : (s.withAbort l).txAccepts = s.txAccepts := rfl
@[simp] theorem State.withAbort_flash (l : List Bool) (s : State) : (s.withAbort l).flash = s.flash := rfl

@[simp] theorem State.withTxAccepts_cfg (n : Option Nat) (s : State) : (s.withTxAccepts n).cfg = s.cfg := rfl
@[simp] theorem State.withTxAccepts_mode (n : Option Nat) (s : State) : (s.withTxAccepts n).mode = s.mode := rfl
@[simp] theorem State.withTxAccepts_pstate (n : Option Nat) (s : State) : (s.withTxAccepts n).pstate = s.pstate := rfl
@[simp] theorem State.withTxAccepts_i (n : Option Nat) (s : State) : (s.withTxAccepts n).i = s.i := rfl
@[simp] theorem State.withTxAccepts_buf (n : Option Nat) (s : State) : (s.withTxAccepts n).buf = s.buf := rfl
@[simp] theorem State.withTxAccepts_sum1 (n : Option Nat) (s : State) : (s.withTxAccepts n).sum1 = s.sum1 := rfl
@[simp] theorem State.withTxAccepts_sum2 (n : Option Nat) (s : State) : (s.withTxAccepts n).sum2 = s.sum2 := rfl
@[simp] theorem State.withTxAccepts_trace (n : Option Nat) (s : State) : (s.withTxAccepts n).trace = s.trace := rfl
@[simp] theorem State.withTxAccepts_phase (n : Option Nat) (s : State) : (s.withTxAccepts n).phase = s.phase := rfl
@[simp] theorem State.withTxAccepts_rx (n : Option Nat) (s : State) : (s.withTxAccepts n).rx = s.rx := rfl
@[simp] theorem State.withTxAccepts_enter (n : Option Nat) (s : State) : (s.withTxAccepts n).enter = s.enter := rfl
@[simp] theorem State.withTxAccepts_abort (n : Option Nat) (s : State) : (s.withTxAccepts n).abort = s.abort := rfl
@[simp] theorem State.withTxAccepts_txAccepts (n : Option Nat) (s : State) : (s.withTxAccepts n).txAccepts = n := rfl
@[simp] theorem State.withTxAccepts_flash (n : Option Nat) (s : State) : (s.withTxAccepts n).flash = s.flash := rfl

@[simp] theorem State.withFlash_cfg (f : FlashAgent) (s : State) : (s.withFlash f).cfg = s.cfg := rfl
@[simp] theorem State.withFlash_mode (f : FlashAgent) (s : State) : (s.withFlash f).mode = s.mode := rfl
@[simp] theorem State.withFlash_pstate (f : FlashAgent) (s : State) : (s.withFlash f).pstate = s.pstate := rfl
@[simp] theorem State.withFlash_i (f : FlashAgent) (s : State) : (s.withFlash f).i = s.i := rfl
@[simp] theorem State.withFlash_buf (f : FlashAgent) (s : State) : (s.withFlash f).buf = s.buf := rfl
@[simp] theorem State.withFlash_sum1 (f : FlashAgent) (s : State) : (s.withFlash f).sum1 = s.sum1 := rfl
@[simp] theorem State.withFlash_sum2 (f : FlashAgent) (s : State) : (s.withFlash f).sum2 = s.sum2 := rfl
@[simp] theorem State.withFlash_trace (f : FlashAgent) (s : State) : (s.withFlash f).trace = s.trace := rfl
@[simp] theorem State.withFlash_phase (f : FlashAgent) (s : State) : (s.withFlash f).phase = s.phase := rfl
@[simp] theorem State.withFlash_rx (f : FlashAgent) (s : State) : (s.withFlash f).rx = s.rx := rfl
@[simp] theorem State.withFlash_enter (f : FlashAgent) (s : State) : (s.withFlash f).enter = s.enter := rfl
@[simp] theorem State.withFlash_abort (f : FlashAgent) (s : State) : (s.withFlash f).abort = s.abort := rfl
@[simp] theorem State.withFlash_txAccepts (f : FlashAgent) (s : State) : (s.withFlash f).txAccepts = s.txAccepts := rfl
@[simp] theorem State.withFlash_flash (f : FlashAgent) (s : State) : (s.withFlash f).flash = f := rfl

end Sys2Proof.Machine
end

