-- ==== Sys2Proof/Laws/Memory.lean ====
section
/-! SUPPORT. The sparse memories: a read after a write, and that every operation keeps the canonical form. -/

namespace Sys2Proof.Machine

variable {w : Nat} {d : BitVec w}

theorem sparseWf_weaken {lo lo' : Nat} {m : List (Nat × BitVec w)} (hle : lo' ≤ lo)
    (h : sparseWf d lo m = true) : sparseWf d lo' m = true := by
  cases m with
  | nil => rfl
  | cons c m =>
    obtain ⟨k, x⟩ := c
    simp only [sparseWf, Bool.and_eq_true, decide_eq_true_eq, bne_iff_ne] at h ⊢
    exact ⟨⟨by omega, h.1.2⟩, h.2⟩

/-- Below the lowest listed address a canonical memory reads as the default. -/
theorem sparseRead_below {lo a : Nat} {m : List (Nat × BitVec w)} (h : sparseWf d lo m = true) (ha : a < lo) :
    sparseRead d m a = d := by
  induction m generalizing lo with
  | nil => rfl
  | cons c m ih =>
    obtain ⟨k, x⟩ := c
    simp only [sparseWf, Bool.and_eq_true, decide_eq_true_eq, bne_iff_ne] at h
    have hne : a ≠ k := by omega
    simp only [sparseRead, hne, if_false]
    exact ih h.2 (by omega)

/-- Reading after one write: the written value there, the old one elsewhere. -/
theorem sparseRead_sparseWrite {lo : Nat} {m : List (Nat × BitVec w)} (h : sparseWf d lo m = true) (a b : Nat)
    (v : BitVec w) : sparseRead d (sparseWrite d m a v) b = if b = a then v else sparseRead d m b := by
  induction m generalizing lo with
  | nil =>
    by_cases hv : v = d <;> simp [sparseWrite, hv, sparseRead]
  | cons c m ih =>
    obtain ⟨k, x⟩ := c
    simp only [sparseWf, Bool.and_eq_true, decide_eq_true_eq, bne_iff_ne] at h
    have hk : sparseRead d m k = d := sparseRead_below h.2 (by omega)
    have hlow : ∀ j, j < k → sparseRead d m j = d := fun j hj => sparseRead_below h.2 (by omega)
    by_cases h1 : a < k
    · by_cases hv : v = d
      · have := hlow a h1
        by_cases hb : b = a <;> simp_all [sparseWrite, sparseRead]
        omega
      · by_cases hb : b = a <;> simp_all [sparseWrite, sparseRead]
    · by_cases h2 : a = k
      · subst h2
        by_cases hv : v = d
        · by_cases hb : b = a <;> simp_all [sparseWrite, sparseRead]
        · by_cases hb : b = a <;> simp_all [sparseWrite, sparseRead]
      · have hrec := ih h.2
        by_cases hb : b = k
        · have hne : b ≠ a := by omega
          have hne' : k ≠ a := by omega
          simp [sparseWrite, sparseRead, h1, h2, hb, hne']
        · simp [sparseWrite, sparseRead, h1, h2, hb, hrec]

theorem sparseWf_sparseWrite {lo : Nat} {m : List (Nat × BitVec w)} (h : sparseWf d lo m = true) {a : Nat}
    (ha : lo ≤ a) (v : BitVec w) : sparseWf d lo (sparseWrite d m a v) = true := by
  induction m generalizing lo with
  | nil =>
    by_cases hv : v = d <;> simp [sparseWrite, hv, sparseWf, ha]
  | cons c m ih =>
    obtain ⟨k, x⟩ := c
    have h' := h
    simp only [sparseWf, Bool.and_eq_true, decide_eq_true_eq, bne_iff_ne] at h
    by_cases h1 : a < k
    · by_cases hv : v = d
      · simpa [sparseWrite, h1, hv] using h'
      · simp [sparseWrite, h1, hv, sparseWf, ha, h.2, h.1.2, Nat.succ_le_of_lt h1]
    · by_cases h2 : a = k
      · subst h2
        by_cases hv : v = d
        · simpa [sparseWrite, hv] using sparseWf_weaken (by omega) h.2
        · simp [sparseWrite, hv, sparseWf, ha, h.2]
      · have hrec := ih h.2 (by omega : k + 1 ≤ a)
        simp [sparseWrite, h1, h2, sparseWf, h.1.1, h.1.2, hrec]

theorem sparseWf_filter {lo : Nat} {m : List (Nat × BitVec w)} (h : sparseWf d lo m = true)
    (p : Nat × BitVec w → Bool) : sparseWf d lo (m.filter p) = true := by
  induction m generalizing lo with
  | nil => rfl
  | cons c m ih =>
    obtain ⟨k, x⟩ := c
    simp only [sparseWf, Bool.and_eq_true, decide_eq_true_eq, bne_iff_ne] at h
    have hrec := ih h.2
    by_cases hp : p (k, x) = true
    · simp [hp, sparseWf, h.1.1, h.1.2, hrec]
    · simpa [List.filter_cons, hp] using sparseWf_weaken (by omega) hrec

/-- Reading after the entries whose address meets `p` are removed: the default there, the old value elsewhere. -/
theorem sparseRead_filter {lo : Nat} {m : List (Nat × BitVec w)} (h : sparseWf d lo m = true) (p : Nat → Bool)
    (a : Nat) : sparseRead d (m.filter fun c => !p c.1) a = if p a then d else sparseRead d m a := by
  induction m generalizing lo with
  | nil => simp [sparseRead]
  | cons c m ih =>
    obtain ⟨k, x⟩ := c
    simp only [sparseWf, Bool.and_eq_true, decide_eq_true_eq, bne_iff_ne] at h
    have hrec := ih h.2
    by_cases hk : a = k
    · subst hk
      have hd : sparseRead d m a = d := sparseRead_below h.2 (by omega)
      by_cases hp : p a = true <;> simp_all [sparseRead]
    · by_cases hp : p k = true <;> simp_all [sparseRead]

theorem mem_sparseWrite {m : List (Nat × BitVec w)} {a : Nat} {v : BitVec w} {c : Nat × BitVec w}
    (h : c ∈ sparseWrite d m a v) : c = (a, v) ∨ c ∈ m := by
  induction m with
  | nil =>
    by_cases hv : v = d <;> simp_all [sparseWrite]
  | cons e m ih =>
    obtain ⟨k, x⟩ := e
    simp only [sparseWrite] at h
    split at h
    · split at h <;> simp_all
    · split at h
      · split at h
        · exact .inr (List.mem_cons_of_mem _ h)
        · simp only [List.mem_cons] at h ⊢
          exact h.imp_right .inr
      · simp only [List.mem_cons] at h ⊢
        rcases h with h | h
        · exact .inr (.inl h)
        · rcases ih h with h | h
          · exact .inl h
          · exact .inr (.inr h)

/-! ### The parse buffer -/

/-- The two basic laws of the parse buffer. -/
theorem Memory.read_write {m : Memory} (h : m.wf = true) (a b : Nat) (v : Byte) :
    (m.write a v).read b = if b = a then v else m.read b :=
  sparseRead_sparseWrite h a b v

/-- A write keeps the canonical form. -/
theorem Memory.wf_write {m : Memory} (h : m.wf = true) (a : Nat) (v : Byte) : (m.write a v).wf = true :=
  sparseWf_sparseWrite h (Nat.zero_le a) v

@[simp] theorem Memory.read_nil (a : Nat) : Memory.read [] a = 0#8 := rfl

@[simp] theorem Memory.wf_nil : Memory.wf [] = true := rfl

/-! ### The flash agent -/

/-- A read leaves every word in place (R79). -/
theorem FlashAgent.wordAt_read (f : FlashAgent) (a b : Addr) : (f.read a).2.wordAt b = f.wordAt b := by
  cases f <;> rfl

/-- With the reference model, the answer to a read is the word held there. -/
theorem FlashAgent.read_eq_wordAt {f : FlashAgent} {a : Addr} {x : Word} (h : f.wordAt a = some x) :
    (f.read a).1 = x := by
  cases f <;> simp_all [FlashAgent.wordAt, FlashAgent.read]

theorem FlashAgent.wf_read {f : FlashAgent} (h : f.wf = true) (a : Addr) : (f.read a).2.wf = true := by
  cases f with
  | oracle n => rfl
  | reference d m => exact h

/-- A word write at the reference model changes that word alone. -/
theorem FlashAgent.wordAt_writeWord {f : FlashAgent} (h : f.wf = true) (a b : Addr) (x : Word) :
    (f.writeWord a x).wordAt b = (f.wordAt b).map fun old => if b = a then x else old := by
  cases f with
  | oracle n => rfl
  | reference d m =>
    simp only [FlashAgent.wf, Bool.and_eq_true] at h
    simp [FlashAgent.writeWord, FlashAgent.wordAt, sparseRead_sparseWrite h.1, BitVec.toNat_inj]

theorem FlashAgent.wf_writeWord {f : FlashAgent} (h : f.wf = true) (a : Addr) (x : Word) :
    (f.writeWord a x).wf = true := by
  cases f with
  | oracle n => rfl
  | reference d m =>
    simp only [FlashAgent.wf, Bool.and_eq_true, List.all_eq_true, decide_eq_true_eq] at h
    simp only [FlashAgent.writeWord, FlashAgent.wf, Bool.and_eq_true, List.all_eq_true, decide_eq_true_eq]
    refine ⟨sparseWf_sparseWrite h.1 (Nat.zero_le _) x, fun c hc => ?_⟩
    rcases mem_sparseWrite hc with rfl | hc
    · exact a.isLt
    · exact h.2 c hc

theorem FlashAgent.wf_writeWords {f : FlashAgent} (h : f.wf = true) (a : Addr) (ws : List Word) :
    (f.writeWords a ws).wf = true := by
  induction ws generalizing f a with
  | nil => exact h
  | cons x ws ih => exact ih (FlashAgent.wf_writeWord h a x) (spanAddr a 1)

theorem FlashAgent.wf_erasePage {f : FlashAgent} (h : f.wf = true) (n : Nat) (a : Addr) :
    (f.erasePage n a).wf = true := by
  cases f with
  | oracle n => rfl
  | reference d m =>
    simp only [FlashAgent.wf, Bool.and_eq_true, List.all_eq_true, decide_eq_true_eq] at h
    simp only [FlashAgent.erasePage, FlashAgent.wf, Bool.and_eq_true, List.all_eq_true, decide_eq_true_eq]
    exact ⟨sparseWf_filter h.1 _, fun c hc => h.2 c (List.mem_filter.1 hc).1⟩

/-- An erase at the reference model: the page reads as erased, every other word as before (D19). -/
theorem FlashAgent.wordAt_erasePage_reference {d : Word} {m : WordMemory}
    (h : (FlashAgent.reference d m).wf = true) (n : Nat) (a b : Addr) :
    ((FlashAgent.reference d m).erasePage n a).wordAt b =
      some (if a.toNat - a.toNat % (n * addrStep) ≤ b.toNat ∧
          b.toNat < a.toNat - a.toNat % (n * addrStep) + n * addrStep then d else sparseRead d m b.toNat) := by
  simp only [FlashAgent.wf, Bool.and_eq_true] at h
  simp only [FlashAgent.erasePage, FlashAgent.wordAt]
  rw [sparseRead_filter h.1 (fun k => decide (a.toNat - a.toNat % (n * addrStep) ≤ k) &&
    decide (k < a.toNat - a.toNat % (n * addrStep) + n * addrStep))]
  simp

end Sys2Proof.Machine
end

