-- ==== Sys2Proof/Laws/Ops.lean ====
section
/-! SUPPORT. One lemma for each shared operation that says once everything it can do. -/

namespace Sys2Proof.Machine

/-! ### Outcomes -/

@[simp] theorem andThen_next (s : State) (f : State → Result) : andThen (.next s) f = f s := rfl

@[simp] theorem andThen_fault (r : Fault) (f : State → Result) : andThen (.fault r) f = .fault r := rfl

@[simp] theorem andThen_refused (r : Refusal) (f : State → Result) : andThen (.refused r) f = .refused r := rfl

/-- What a chain answers next, its first part answered next and the rest from there. -/
theorem andThen_eq_next {o : Result} {f : State → Result} {t : State} :
    andThen o f = .next t ↔ ∃ s, o = .next s ∧ f s = .next t := by
  cases o <;> simp [andThen]

theorem andThen_assoc (o : Result) (f g : State → Result) :
    andThen (andThen o f) g = andThen o fun s => andThen (f s) g := by
  cases o <;> rfl

/-! ### Events -/

theorem raiseDiscard_eq (r : DiscardReason) (s : State) : raiseDiscard r s = s.emit (.discard r) := rfl

theorem live_eq (s : State) : live s = s.emit .live := rfl

theorem serviceWdt_eq (s : State) : serviceWdt s = s.emit .wdt := rfl

theorem jumpApp_eq (s : State) :
    jumpApp s = (s.emit (.jumpToApplication s.cfg.appStartAddr)).withMode .runApplication := rfl

/-- The wipe leaves an empty receiver and nothing else changed (R187). -/
theorem wipe_eq (s : State) : wipe s = ((s.withBuf []).withI 0).withPState .waitForStart := rfl

theorem emit_eq_emitAll (e : Event) (s : State) : s.emit e = s.emitAll [e] := rfl

theorem emitAll_emitAll (a b : List Event) (s : State) : (s.emitAll a).emitAll b = s.emitAll (a ++ b) := by
  simp [State.emitAll]

/-! ### Transmission -/

/-- Everything a transmission can do: accepted whole, with only the trace and the sink's bound changed, or stuck. -/
theorem txAll_cases (l : List Byte) (s : State) :
    (sinkAccepts s l.length ∧
      txAll l s = .next ((s.emitAll (l.map .tx)).withTxAccepts (s.txAccepts.map (· - l.length)))) ∨
    (∃ n, s.txAccepts = some n ∧ n < l.length ∧
      txAll l s = .fault (.sinkBlocked (s.trace ++ (l.take n).map .tx))) := by
  unfold txAll sinkAccepts
  cases h : s.txAccepts with
  | none => exact .inl ⟨by simp, by simp [State.withTxAccepts, State.emitAll, h]⟩
  | some n =>
    by_cases hn : l.length ≤ n
    · exact .inl ⟨by simpa using hn, by simp [hn]⟩
    · exact .inr ⟨n, rfl, by omega, by simp [hn]⟩

theorem txAll_of_accepts {l : List Byte} {s : State} (h : sinkAccepts s l.length) :
    txAll l s = .next ((s.emitAll (l.map .tx)).withTxAccepts (s.txAccepts.map (· - l.length))) := by
  rcases txAll_cases l s with h' | ⟨n, hn, hlt, -⟩
  · exact h'.2
  · exact absurd (h n hn) (by omega)

theorem txAll_of_blocked {l : List Byte} {s : State} {n : Nat} (hn : s.txAccepts = some n) (h : n < l.length) :
    txAll l s = .fault (.sinkBlocked (s.trace ++ (l.take n).map .tx)) := by
  have : ¬ l.length ≤ n := by omega
  simp [txAll, hn, this]

@[simp] theorem txAll_nil (s : State) : txAll [] s = .next s := by
  cases s with
  | mk cfg mode pstate i buf s1 s2 trace phase rx enter abort acc flash =>
    cases acc <;> simp [txAll, State.emitAll, State.withTxAccepts]

/-- Transmitting two sequences one after the other is transmitting their concatenation. -/
theorem txAll_append (a b : List Byte) (s : State) : andThen (txAll a s) (txAll b) = txAll (a ++ b) s := by
  cases h : s.txAccepts with
  | none => simp [txAll, h, emitAll_emitAll]
  | some n =>
    by_cases ha : a.length ≤ n
    · by_cases hb : b.length ≤ n - a.length
      · have hab : a.length + b.length ≤ n := by omega
        simp [txAll, h, ha, hb, hab, State.emitAll, State.withTxAccepts]
        omega
      · have hab : ¬ a.length + b.length ≤ n := by omega
        simp [txAll, h, ha, hb, hab, List.take_append, List.take_of_length_le ha]
    · have hab : ¬ a.length + b.length ≤ n := by omega
      have hz : n - a.length = 0 := by omega
      simp [txAll, h, ha, hab, List.take_append, hz]

/-! ### The polls -/

/-- Everything an RX poll can do. -/
theorem pollRx_cases (s : State) :
    (s.rx = [] ∧ pollRx s = (none, s)) ∨ (∃ x l, s.rx = x :: l ∧ pollRx s = (x, s.withRx l)) := by
  unfold pollRx
  cases s.rx <;> simp

/-- Everything an ABORT poll can do. -/
theorem pollAbort_cases (s : State) :
    (s.abort = [] ∧ pollAbort s = (false, s.emit (.abort false))) ∨
      (∃ v l, s.abort = v :: l ∧ pollAbort s = (v, (s.withAbort l).emit (.abort v))) := by
  unfold pollAbort
  cases s.abort <;> simp

/-! ### Flash requests -/

/-- A sequence of reads: the words answered, the events in order, and nothing else changed but the agent. -/
theorem flashReadWords_spec (as : List Addr) (s : State) :
    (flashReadWords as s).1.length = as.length ∧
    (flashReadWords as s).2 = (s.emitAll (List.zipWith Event.readWord as (flashReadWords as s).1)).withFlash
      (flashReadWords as s).2.flash ∧
    (∀ b, (flashReadWords as s).2.flash.wordAt b = s.flash.wordAt b) ∧
    (s.flash.wf = true → (flashReadWords as s).2.flash.wf = true) := by
  induction as generalizing s with
  | nil => exact ⟨rfl, by simp [flashReadWords, State.emitAll, State.withFlash], fun _ => rfl, id⟩
  | cons a as ih =>
    obtain ⟨h1, h2, h3, h4⟩ := ih (flashReadWord a s).2
    refine ⟨by simp [flashReadWords, h1], ?_, fun b => ?_, fun h => h4 ?_⟩
    · simp only [flashReadWords, List.zipWith_cons_cons]
      rw [h2]
      simp [flashReadWord, State.emitAll, State.withFlash, State.emit]
    · simp only [flashReadWords]
      rw [h3 b]
      exact FlashAgent.wordAt_read _ _ _
    · exact FlashAgent.wf_read h a

/-- A sequence of row writes: the events in order, and nothing else changed but the agent. -/
theorem flashWriteRows_spec (rows : List (Addr × List Word)) (s : State) :
    flashWriteRows rows s = (s.emitAll (rows.map fun r => .writeRow r.1 r.2)).withFlash
      (rows.foldl (fun f r => f.writeWords r.1 r.2) s.flash) := by
  induction rows generalizing s with
  | nil => simp [flashWriteRows, State.emitAll, State.withFlash]
  | cons r rows ih =>
    rw [flashWriteRows, ih]
    simp [flashWriteRow, State.emitAll, State.withFlash, State.emit]

end Sys2Proof.Machine
end

