-- ==== Sys2Proof/Laws/Transmitter.lean ====
section
/-! SUPPORT. The checksum engine and the reply encoder in closed form. -/

namespace Sys2Proof.Machine

theorem accumulateAll_append (a b : List Byte) (s : State) :
    accumulateAll (a ++ b) s = accumulateAll b (accumulateAll a s) := by
  induction a generalizing s with
  | nil => rfl
  | cons x a ih => exact ih (accumulate x s)

/-- Accumulation touches the two sums only, and they depend on the sums alone. -/
theorem accumulateAll_eq (l : List Byte) (s : State) :
    accumulateAll l s = s.withSums (accumulateAll l s).sum1 (accumulateAll l s).sum2 := by
  induction l generalizing s with
  | nil => rfl
  | cons b l ih =>
    rw [accumulateAll, ih]
    simp [accumulate, State.withSums]

/-- The accumulator after a sequence is the loop of `Compute` from the sums before it. -/
theorem runningChecksum_accumulateAll (l : List Byte) (s : State) :
    runningChecksum (accumulateAll l s) = computeFrom s.sum1 s.sum2 l := by
  induction l generalizing s with
  | nil => rfl
  | cons b l ih => rw [accumulateAll, ih]; rfl

theorem accumulate_withSums (b c1 c2 : Byte) (s : State) :
    accumulate b (s.withSums c1 c2) = s.withSums (c1 + b) (c2 + (c1 + b)) := rfl

/-- Transmission neither reads nor writes the sums, so it commutes with accumulation. -/
theorem txAll_accumulate (l : List Byte) (b : Byte) (s : State) :
    andThen (txAll l s) (fun t => .next (accumulate b t)) = txAll l (accumulate b s) := by
  rcases txAll_cases l s with ⟨h, e⟩ | ⟨n, hn, hlt, e⟩
  · rw [e, txAll_of_accepts (s := accumulate b s) h]; rfl
  · rw [e, txAll_of_blocked (s := accumulate b s) hn hlt]; rfl

theorem andThen_txAll_sendByte (l : List Byte) (b : Byte) (s : State) :
    andThen (txAll l s) (sendByte b) = txAll (l ++ esc b) (accumulate b s) := by
  rw [← txAll_append, ← txAll_accumulate, andThen_assoc]
  rfl

/-- `SendByte` over a sequence: the bytes escaped in order, the logical values accumulated (R161, R145). -/
theorem andThen_txAll_sendBytes (pre l : List Byte) (s : State) :
    andThen (txAll pre s) (sendBytes l) = txAll (pre ++ l.flatMap esc) (accumulateAll l s) := by
  induction l generalizing pre s with
  | nil =>
    simp only [List.flatMap_nil, List.append_nil, accumulateAll]
    cases txAll pre s <;> rfl
  | cons b l ih =>
    have : sendBytes (b :: l) = fun t => andThen (sendByte b t) (sendBytes l) := rfl
    rw [this, ← andThen_assoc, andThen_txAll_sendByte, ih]
    simp [accumulateAll]

theorem sendBytes_eq (l : List Byte) (s : State) : sendBytes l s = txAll (l.flatMap esc) (accumulateAll l s) := by
  have := andThen_txAll_sendBytes [] l s
  simpa using this

theorem sendByte_eq_sendBytes (b : Byte) (s : State) : sendByte b s = sendBytes [b] s := by
  simp only [sendBytes]
  cases sendByte b s <;> rfl

theorem sendBytes_append (a b : List Byte) (s : State) :
    andThen (sendBytes a s) (sendBytes b) = sendBytes (a ++ b) s := by
  rw [sendBytes_eq, andThen_txAll_sendBytes, sendBytes_eq, accumulateAll_append]
  simp

/-- `FrameEnd` from sums that hold the checksum `C`: the two bytes of `C`, escaped, then the end marker (R162). -/
theorem frameEnd_eq (s : State) :
    frameEnd s = andThen (sendBytes (bytes16 (runningChecksum s)) s) (txAll [endMarkerByte]) := by
  rw [frameEnd, show bytes16 (runningChecksum s) = [(runningChecksum s).extractLsb' 0 8] ++
    [(runningChecksum s).extractLsb' 8 8] from rfl, ← sendBytes_append, andThen_assoc, ← sendByte_eq_sendBytes]
  congr 1
  funext t
  rw [← sendByte_eq_sendBytes]

theorem andThen_txAll_frameEnd (pre : List Byte) (s : State) :
    andThen (txAll pre s) frameEnd =
      txAll (pre ++ (bytes16 (runningChecksum s)).flatMap esc ++ [endMarkerByte])
        (accumulateAll (bytes16 (runningChecksum s)) s) := by
  have hrc : ∀ t, txAll pre s = .next t → runningChecksum t = runningChecksum s := by
    intro t ht
    rcases txAll_cases pre s with ⟨-, e⟩ | ⟨n, -, -, e⟩
    · rw [e] at ht; cases ht; rfl
    · rw [e] at ht; cases ht
  have : andThen (txAll pre s) frameEnd = andThen (andThen (txAll pre s)
      (sendBytes (bytes16 (runningChecksum s)))) (txAll [endMarkerByte]) := by
    rw [andThen_assoc]
    cases h : txAll pre s with
    | next t => simp [frameEnd_eq, hrc t h]
    | fault r => rfl
    | refused r => rfl
  rw [this, andThen_txAll_sendBytes, txAll_append]

/-- `SendFrame` in closed form: the raw frame of R101 is transmitted, and the sums hold the accumulation over the
logical body and its checksum bytes (R163, R43 (b)). -/
theorem sendFrame_eq (cmd : Byte) (data : List Byte) (s : State) :
    sendFrame cmd data s = txAll (rawFrame cmd data)
      (accumulateAll (withChecksum (logicalBody cmd data)) (s.withSums 0#8 0#8)) := by
  have hbody : ∀ t, (andThen (sendBytes (bytes16 (BitVec.ofNat 16 data.length)) t) fun s2 =>
      andThen (sendByte cmd s2) fun s3 => andThen (sendBytes data s3) frameEnd) =
      andThen (sendBytes (logicalBody cmd data) t) frameEnd := by
    intro t
    rw [logicalBody, ← sendBytes_append, ← sendBytes_append, andThen_assoc, andThen_assoc]
    congr 1
    funext s2
    rw [sendByte_eq_sendBytes]
  have hsum : runningChecksum (accumulateAll (logicalBody cmd data) (s.withSums 0#8 0#8)) =
      compute (logicalBody cmd data) (logicalBody cmd data).length := by
    rw [runningChecksum_accumulateAll, compute, List.take_length]; rfl
  unfold sendFrame frameStart
  simp only [hbody]
  rw [← andThen_assoc, andThen_txAll_sendBytes, andThen_txAll_frameEnd, hsum, ← accumulateAll_append]
  simp [rawFrame, frameOfBody, withChecksum]

/-- A reply the sink accepts: the state `replied` names. -/
theorem sendFrame_of_accepts {cmd : Byte} {data : List Byte} {s : State}
    (h : sinkAccepts s (rawFrame cmd data).length) : sendFrame cmd data s = .next (replied cmd data s) := by
  rw [sendFrame_eq, accumulateAll_eq, txAll_of_accepts (by simpa [sinkAccepts] using h)]
  rfl

/-- A reply the sink does not accept: the block is stuck inside the frame (R164, D39). -/
theorem sendFrame_of_blocked {cmd : Byte} {data : List Byte} {s : State} {n : Nat} (hn : s.txAccepts = some n)
    (h : n < (rawFrame cmd data).length) :
    sendFrame cmd data s = .fault (.sinkBlocked (s.trace ++ ((rawFrame cmd data).take n).map .tx)) := by
  rw [sendFrame_eq, accumulateAll_eq, txAll_of_blocked (n := n) (by simpa using hn) h]
  rfl

/-- Everything a reply can do. -/
theorem sendFrame_cases (cmd : Byte) (data : List Byte) (s : State) :
    (sinkAccepts s (rawFrame cmd data).length ∧ sendFrame cmd data s = .next (replied cmd data s)) ∨
    (∃ n, s.txAccepts = some n ∧ n < (rawFrame cmd data).length ∧
      sendFrame cmd data s = .fault (.sinkBlocked (s.trace ++ ((rawFrame cmd data).take n).map .tx))) := by
  by_cases h : sinkAccepts s (rawFrame cmd data).length
  · exact .inl ⟨h, sendFrame_of_accepts h⟩
  · simp only [sinkAccepts, not_forall] at h
    obtain ⟨n, hn, hlt⟩ := h
    exact .inr ⟨n, hn, by omega, sendFrame_of_blocked hn (by omega)⟩

end Sys2Proof.Machine
end

