-- ==== Sys2Proof/Laws/Step.lean ====
section
/-! SUPPORT. What the dispatcher, the receive step and one step of the machine can do, said once each. -/

namespace Sys2Proof.Machine

/-- The dispatcher performs a command exactly as `exec` does. -/
theorem perform_eq_exec (k : Command) (s : State) : perform k s = exec k.toInstr s := by
  cases k <;> rfl

/-- Everything `Dispatch(P)` can do (R210). -/
theorem dispatch_cases (P : List Byte) (s : State) :
    (∃ n, decodePayload s.cfg P = .error (.noCommand n) ∧ dispatch P s = .next (s.emit (.discard (.noCommand n)))) ∨
    (∃ c n, decodePayload s.cfg P = .error (.shortArgs c n) ∧
      dispatch P s = .next (s.emit (.discard (.shortArgs c n)))) ∨
    (∃ k, decodePayload s.cfg P = .ok k ∧ dispatch P s = exec k.toInstr s) := by
  have hd : dispatch P s = match decodePayload s.cfg P with
    | .error r => .next (dropPayload r s)
    | .ok k => perform k s := rfl
  by_cases h1 : P.length < 3
  · have e : decodePayload s.cfg P = .error (.noCommand P.length) := by simp [decodePayload, h1]
    exact .inl ⟨_, e, by rw [hd, e]; rfl⟩
  · by_cases h2 : P.getD 2 0#8 ∈ commandCodes
    · by_cases h3 : (P.drop 3).length < req s.cfg (P.getD 2 0#8)
      · have e : decodePayload s.cfg P = .error (.shortArgs (P.getD 2 0#8) (P.drop 3).length) := by
          simp only [decodePayload, h1, if_false, List.contains_iff_mem.2 h2, h3, if_true]; rfl
        exact .inr (.inl ⟨_, _, e, by rw [hd, e]; rfl⟩)
      · have e : decodePayload s.cfg P = .ok (commandOf s.cfg (P.getD 2 0#8) (P.drop 3)) := by
          simp only [decodePayload, h1, if_false, List.contains_iff_mem.2 h2, h3]; rfl
        exact .inr (.inr ⟨_, e, by rw [hd, e]; exact perform_eq_exec _ _⟩)
    · have e : decodePayload s.cfg P = .ok (.unknown (P.getD 2 0#8)) := by
        have h2' : commandCodes.contains (P.getD 2 0#8) = false := by
          rw [← Bool.not_eq_true, List.contains_iff_mem]; exact h2
        simp only [decodePayload, h1, if_false, h2']; rfl
      exact .inr (.inr ⟨_, e, by rw [hd, e]; exact perform_eq_exec _ _⟩)

/-- Everything `Append(v)` can do (R186). -/
theorem append_cases (v : Byte) (s : State) :
    (s.cfg.cap ≤ s.i ∧ append v s = .fault .bufferBound) ∨
    (s.i + 1 < s.cfg.cap ∧ append v s = .next ((s.withBuf (s.buf.write s.i v)).withI (s.i + 1))) ∨
    (s.i + 1 = s.cfg.cap ∧ append v s = .next ((wipe s).emit (.discard .overflow))) := by
  by_cases h : s.i < s.cfg.cap
  · by_cases h2 : s.i + 1 = s.cfg.cap
    · exact .inr (.inr ⟨h2, by simp [append, h, overflow, h2]; rfl⟩)
    · exact .inr (.inl ⟨by omega, by simp [append, h, overflow, h2]⟩)
  · exact .inl ⟨by omega, by simp [append, h]⟩

/-- Everything the verdict on a frame can be (R188). -/
theorem judgeFrame_cases (s : State) :
    (s.i < 2 ∧ judgeFrame s = .next (s.emit (.discard (.shortFrame s.i)))) ∨
    (2 ≤ s.i ∧ cksumOk s = false ∧ judgeFrame s = .next (s.emit (.discard .checksumMismatch))) ∨
    (2 ≤ s.i ∧ cksumOk s = true ∧ judgeFrame s = dispatch (payload s) (s.emit .live)) := by
  by_cases h : s.i < 2
  · exact .inl ⟨h, by simp [judgeFrame, h, raiseDiscard_eq]⟩
  · cases hc : cksumOk s
    · exact .inr (.inl ⟨by omega, rfl, by simp [judgeFrame, h, hc, raiseDiscard_eq]⟩)
    · exact .inr (.inr ⟨by omega, rfl, by simp [judgeFrame, h, hc, live_eq]⟩)

/-- What follows a frame answers next (R191). -/
theorem finishFrame_eq (s : State) : finishFrame s = .next (if s.mode = .bootWait then wipe s else s) := by
  unfold finishFrame; split <;> rfl

/-- Everything a receive step can do: decode the byte in `pstate` and perform its rule (R180). -/
theorem recvByte_cases (b : Byte) (s : State) :
    (s.pstate = .endOfMessage ∧ recvByte b s = .fault .endOfMessageAtReceive) ∨
    (∃ k, decode s.cfg (.wire s.pstate) [b] = .ok k ∧ recvByte b s = exec k (s.emit (.rx b))) := by
  cases h : decode s.cfg (.wire s.pstate) [b] with
  | error r =>
    refine .inl ⟨?_, by simp [recvByte, h]⟩
    cases hp : s.pstate with
    | endOfMessage => rfl
    | waitForStart => simp only [hp, decode, decodeWire] at h; split at h <;> cases h
    | readVerbatim =>
      simp only [hp, decode, decodeWire] at h
      split at h
      · cases h
      · split at h <;> cases h
    | readEscaped => simp only [hp, decode, decodeWire] at h; cases h
  | ok k => exact .inr ⟨k, rfl, by simp [recvByte, h]⟩

/-- The step of a legally configured block. -/
theorem step_of_legal {s : State} (h : s.cfg.Legal) : step s = stepMode s := if_pos h

/-- An illegal configuration is refused (R8). -/
theorem step_of_illegal {s : State} (h : ¬ s.cfg.Legal) : step s = .refused .illegalConfiguration := if_neg h

/-- Everything a step can do when it answers next: the configuration is legal, and one rule of the session or one
receive step was performed (R281, R282, R180). -/
theorem step_next_cases {s t : State} (h : step s = .next t) :
    s.cfg.Legal ∧
    ((s.mode = .init ∧ s.enter = true ∧
        t = ((s.emit (.enter true)).withMode .bootWait).withPhase .service) ∨
     (s.mode = .init ∧ s.enter = false ∧ t = jumpApp (s.emit (.enter false))) ∨
     (s.mode = .bootWait ∧ s.phase = .service ∧ t = (s.emit .wdt).withPhase .drain) ∨
     (s.mode = .bootWait ∧ s.phase = .drain ∧ s.rx = [] ∧ t = s.withPhase .poll) ∨
     (∃ l, s.mode = .bootWait ∧ s.phase = .drain ∧ s.rx = none :: l ∧ t = (s.withRx l).withPhase .poll) ∨
     (∃ b l, s.mode = .bootWait ∧ s.phase = .drain ∧ s.rx = some b :: l ∧ recvByte b (s.withRx l) = .next t) ∨
     (s.mode = .bootWait ∧ s.phase = .poll ∧ s.abort = [] ∧ t = (s.emit (.abort false)).withPhase .service) ∨
     (∃ l, s.mode = .bootWait ∧ s.phase = .poll ∧ s.abort = false :: l ∧
        t = ((s.withAbort l).emit (.abort false)).withPhase .service) ∨
     (∃ l, s.mode = .bootWait ∧ s.phase = .poll ∧ s.abort = true :: l ∧
        t = jumpApp ((s.withAbort l).emit (.abort true)))) := by
  by_cases hl : s.cfg.Legal
  · refine ⟨hl, ?_⟩
    rw [step_of_legal hl, stepMode] at h
    cases hm : s.mode with
    | init =>
      simp only [hm, startupDecision] at h
      cases he : s.enter <;> simp only [he] at h <;> cases h <;> simp
    | runApplication => simp [hm] at h
    | bootWait =>
      simp only [hm, loopPart] at h
      cases hp : s.phase with
      | service =>
        simp only [hp, servicePart, serviceWdt_eq] at h
        cases h; simp
      | drain =>
        simp only [hp, drainPart] at h
        rcases pollRx_cases s with ⟨hr, e⟩ | ⟨x, l, hr, e⟩
        · simp only [e] at h
          cases h; simp [hr]
        · simp only [e] at h
          cases x with
          | none => simp only at h; cases h; simp [hr]
          | some b => simpa [hr] using h
      | poll =>
        simp only [hp, pollPart] at h
        rcases pollAbort_cases s with ⟨ha, e⟩ | ⟨v, l, ha, e⟩
        · simp only [e] at h
          cases h; simp [ha]
        · simp only [e] at h
          cases v <;> simp only at h <;> cases h <;> simp [ha]
  · rw [step_of_illegal hl] at h; cases h

end Sys2Proof.Machine
end

