-- ==== Sys2Proof/Laws/Commands.lean ====
section
/-! SUPPORT. What performing a command can do, said once for all fifteen. -/

namespace Sys2Proof.Machine

/-- What a command that completes has done: events `es`, none of them a byte taken or a liveness pulse. -/
structure CommandEffect (k : Command) (s t : State) (es : List Event) : Prop where
  /-- Nothing but the trace, the agent, the sums, the sink's bound and, for START_APP, the mode has changed. -/
  frame : t = { s with
    trace := s.trace ++ es, flash := t.flash, sum1 := t.sum1, sum2 := t.sum2, txAccepts := t.txAccepts
    mode := if k = .startApp then .runApplication else s.mode }
  noRx : ∀ e ∈ es, e.isRx = false ∧ e ≠ .live
  flashWf : s.flash.wf = true → t.flash.wf = true
  unbounded : s.txAccepts = none → t.txAccepts = none
  erases : ∀ a, Event.erasePage a ∈ es → inBoot s.cfg a = false
  jumps : if k = .startApp then es = [.jumpToApplication s.cfg.appStartAddr] else ∀ e ∈ es, e.isJump = false
  discards : (∃ r, es = [.discard r] ∧ (r.number = 4 ∨ r.number = 5)) ∨ ∀ r, Event.discard r ∉ es

/-- Either the command completes with an effect as above, or it is stuck on the sink. -/
def CommandOutcome (k : Command) (s : State) : Prop :=
  (∃ t es, exec k.toInstr s = .next t ∧ CommandEffect k s t es) ∨
  (s.txAccepts ≠ none ∧ ∃ tr, exec k.toInstr s = .fault (.sinkBlocked tr))

/-- A command that ends in a reply, after the reads `es`. -/
theorem CommandOutcome.of_reply {k : Command} {s s1 : State} {c : Byte} {d : List Byte} {es : List Event}
    (hs : s1 = { s with trace := s.trace ++ es, flash := s1.flash }) (hes : ∀ e ∈ es, ∃ a w, e = .readWord a w)
    (hw : s.flash.wf = true → s1.flash.wf = true) (hk : k ≠ .startApp)
    (he : exec k.toInstr s = sendFrame c d s1) : CommandOutcome k s := by
  have hmem : ∀ e ∈ es ++ (rawFrame c d).map Event.tx, (∃ a w, e = .readWord a w) ∨ ∃ b, e = .tx b := by
    intro e h
    rcases List.mem_append.1 h with h | h
    · exact .inl (hes e h)
    · obtain ⟨b, -, rfl⟩ := List.mem_map.1 h
      exact .inr ⟨b, rfl⟩
  rcases sendFrame_cases c d s1 with ⟨-, e⟩ | ⟨n, hn, -, e⟩
  · refine .inl ⟨_, es ++ (rawFrame c d).map .tx, he.trans e, ?_⟩
    refine ⟨?_, fun e h => ?_, hw, fun h => ?_, fun a h => ?_, ?_, .inr fun r h => ?_⟩
    · rw [hs]; simp [replied, hk]
    · rcases hmem e h with ⟨a, w, rfl⟩ | ⟨b, rfl⟩ <;> simp [Event.isRx]
    · rw [hs]; simp [replied, h]
    · rcases hmem _ h with ⟨_, _, h⟩ | ⟨_, h⟩ <;> cases h
    · rw [if_neg hk]
      intro e h
      rcases hmem e h with ⟨a, w, rfl⟩ | ⟨b, rfl⟩ <;> rfl
    · rcases hmem _ h with ⟨_, _, h⟩ | ⟨_, h⟩ <;> cases h
  · refine .inr ⟨?_, _, he.trans e⟩
    rw [hs] at hn
    simp [show s.txAccepts = some n from hn]

/-- A query: a reply with no read before it. -/
theorem CommandOutcome.of_query {k : Command} {s : State} {c : Byte} {d : List Byte} (hk : k ≠ .startApp)
    (he : exec k.toInstr s = sendFrame c d s) : CommandOutcome k s :=
  .of_reply (es := []) (by simp) (by simp) id hk he

/-- A command that only records a cause E4 or E5. -/
theorem CommandOutcome.of_discard {k : Command} {s : State} {r : DiscardReason} (hk : k ≠ .startApp)
    (hr : r.number = 4 ∨ r.number = 5) (he : exec k.toInstr s = .next (raiseDiscard r s)) : CommandOutcome k s := by
  refine .inl ⟨_, [.discard r], he, ?_⟩
  refine ⟨by simp [raiseDiscard, State.emit, hk], by simp [Event.isRx], id, id, by simp, ?_, .inl ⟨r, rfl, hr⟩⟩
  rw [if_neg hk]
  simp [Event.isJump]

/-- A command that only makes erase and write requests. -/
theorem CommandOutcome.of_requests {k : Command} {s : State} {es : List Event} {f : FlashAgent} (hk : k ≠ .startApp)
    (hes : ∀ e ∈ es, (∃ a, e = .erasePage a ∧ inBoot s.cfg a = false) ∨ (∃ a ws, e = .writeRow a ws) ∨
      ∃ a x y, e = .writeDoubleWord a x y)
    (hw : s.flash.wf = true → f.wf = true)
    (he : exec k.toInstr s = .next ((s.emitAll es).withFlash f)) : CommandOutcome k s := by
  refine .inl ⟨_, es, he, ?_⟩
  refine ⟨by simp [State.emitAll, State.withFlash, hk], fun e h => ?_, hw, id, fun a h => ?_, ?_,
    .inr fun r h => ?_⟩
  · rcases hes e h with ⟨a, rfl, -⟩ | ⟨a, ws, rfl⟩ | ⟨a, x, y, rfl⟩ <;> simp [Event.isRx]
  · rcases hes _ h with ⟨b, e, hb⟩ | ⟨_, _, h⟩ | ⟨_, _, _, h⟩
    · cases e; exact hb
    · cases h
    · cases h
  · rw [if_neg hk]
    intro e h
    rcases hes e h with ⟨a, rfl, -⟩ | ⟨a, ws, rfl⟩ | ⟨a, x, y, rfl⟩ <;> rfl
  · rcases hes _ h with ⟨_, h, _⟩ | ⟨_, _, h⟩ | ⟨_, _, _, h⟩ <;> cases h

/-- A sequence of row writes keeps the agent's canonical form. -/
theorem FlashAgent.wf_foldl_writeWords (rows : List (Addr × List Word)) (f : FlashAgent) (h : f.wf = true) :
    (rows.foldl (fun f r => f.writeWords r.1 r.2) f).wf = true := by
  induction rows generalizing f with
  | nil => exact h
  | cons r rows ih => exact ih _ (FlashAgent.wf_writeWords h _ _)

/-- Everything a command can do. -/
theorem exec_command_cases (k : Command) (s : State) : CommandOutcome k s := by
  cases k with
  | readPlatform => exact .of_query (by simp) rfl
  | readVersion => exact .of_query (by simp) rfl
  | readRowLen => exact .of_query (by simp) rfl
  | readPageLen => exact .of_query (by simp) rfl
  | readProgLen => exact .of_query (by simp) rfl
  | readMaxProgSize => exact .of_query (by simp) rfl
  | readAppStartAddr => exact .of_query (by simp) rfl
  | readBootStartAddr => exact .of_query (by simp) rfl
  | erasePage a =>
    cases h : inBoot s.cfg a with
    | true =>
      exact .of_discard (r := .protection a) (by simp) (.inl rfl)
        (by simp [exec, Command.toInstr, execErasePage, h])
    | false =>
      by_cases h0 : a = 0#32
      · subst h0
        refine .of_requests (es := [.erasePage 0#32, .writeDoubleWord 0#32 s.cfg.jump0 s.cfg.jump1])
          (f := (s.flash.erasePage s.cfg.pageSize 0#32).writeWords 0#32 [s.cfg.jump0, s.cfg.jump1]) (by simp)
          (by simp [h]) (fun hw => FlashAgent.wf_writeWords (FlashAgent.wf_erasePage hw _ _) _ _) ?_
        simp [exec, Command.toInstr, execErasePage, h, flashWriteDouble, flashErasePage, State.emit, State.emitAll,
          State.withFlash]
      · refine .of_requests (es := [.erasePage a]) (f := s.flash.erasePage s.cfg.pageSize a) (by simp) (by simp [h])
          (fun hw => FlashAgent.wf_erasePage hw _ _) ?_
        simp [exec, Command.toInstr, execErasePage, h, h0, flashErasePage, emit_eq_emitAll]
  | readAddr a =>
    exact .of_reply (s1 := (flashReadWord a s).2) (es := [.readWord a (flashReadWord a s).1])
      (by simp [flashReadWord, State.emit, State.withFlash]) (by simp) (fun h => FlashAgent.wf_read h a) (by simp) rfl
  | readMax a =>
    obtain ⟨-, h2, -, h4⟩ := flashReadWords_spec (spanAddrs a s.cfg.maxProgSize) s
    refine .of_reply (s1 := (flashReadWords (spanAddrs a s.cfg.maxProgSize) s).2)
      (es := List.zipWith Event.readWord (spanAddrs a s.cfg.maxProgSize)
        (flashReadWords (spanAddrs a s.cfg.maxProgSize) s).1) ?_ ?_ h4 (by simp) rfl
    · rw [h2]; simp [State.emitAll, State.withFlash]
    · intro e he
      obtain ⟨i, hi, rfl⟩ := List.getElem_of_mem he
      exact ⟨_, _, by rw [List.getElem_zipWith]⟩
  | writeRow a ws =>
    cases h : (inBoot s.cfg a || belowIvt s.cfg a) with
    | true => exact .of_discard (by simp) (.inl rfl) (by simp only [exec, Command.toInstr, execWriteRow, h]; rfl)
    | false =>
      refine .of_requests (es := [.writeRow a ws]) (f := s.flash.writeWords a ws) (by simp) (by simp)
        (fun hw => FlashAgent.wf_writeWords hw _ _) ?_
      simp only [exec, Command.toInstr, execWriteRow, h]; rfl
  | writeMaxProgSize a ws =>
    cases h : inBoot s.cfg a with
    | true =>
      exact .of_discard (by simp) (.inl rfl) (by simp only [exec, Command.toInstr, execWriteMaxProgSize, h]; rfl)
    | false =>
      refine .of_requests (es := (bulkRows s.cfg a (forceJumpPair s.cfg a ws)).map fun r => .writeRow r.1 r.2)
        (f := (bulkRows s.cfg a (forceJumpPair s.cfg a ws)).foldl (fun f r => f.writeWords r.1 r.2) s.flash)
        (by simp) ?_ (FlashAgent.wf_foldl_writeWords _ _) ?_
      · intro e he
        obtain ⟨r, -, rfl⟩ := List.mem_map.1 he
        exact .inr (.inl ⟨_, _, rfl⟩)
      · rw [← flashWriteRows_spec]
        simp only [exec, Command.toInstr, execWriteMaxProgSize, h]; rfl
  | startApp =>
    refine .inl ⟨_, [.jumpToApplication s.cfg.appStartAddr], rfl, ?_⟩
    exact ⟨by simp [jumpApp, State.emit, State.withMode], by simp [Event.isRx], id, id, by simp, by simp,
      .inr (by simp)⟩
  | unknown code => exact .of_discard (by simp) (.inr rfl) rfl

end Sys2Proof.Machine
end

