-- ==== Sys2Proof/Laws/PerInstr.lean ====
section
/-! SUPPORT. A fact about every instruction as syntax, one lemma for each constructor: where the encoding of a command
holds its command byte (spec/43_dispatch_info.md R212), and that a wire class is one byte. -/

namespace Sys2Proof.Laws.CommandByte

/-- In a payload context the encoding has its command byte at offset 2 and the arguments after it; in a wire context it
is one byte. -/
def Statement (i : Instr) : Prop :=
  match i.context with
  | .payload => ∃ lo hi code args, encode i = lo :: hi :: code :: args
  | .wire _ => ∃ b, encode i = [b]

theorem readPlatform : Statement .readPlatform := ⟨_, _, _, _, rfl⟩
theorem readVersion : Statement .readVersion := ⟨_, _, _, _, rfl⟩
theorem readRowLen : Statement .readRowLen := ⟨_, _, _, _, rfl⟩
theorem readPageLen : Statement .readPageLen := ⟨_, _, _, _, rfl⟩
theorem readProgLen : Statement .readProgLen := ⟨_, _, _, _, rfl⟩
theorem readMaxProgSize : Statement .readMaxProgSize := ⟨_, _, _, _, rfl⟩
theorem readAppStartAddr : Statement .readAppStartAddr := ⟨_, _, _, _, rfl⟩
theorem readBootStartAddr : Statement .readBootStartAddr := ⟨_, _, _, _, rfl⟩
theorem erasePage (a : Addr) : Statement (.erasePage a) := ⟨_, _, _, _, rfl⟩
theorem readAddr (a : Addr) : Statement (.readAddr a) := ⟨_, _, _, _, rfl⟩
theorem readMax (a : Addr) : Statement (.readMax a) := ⟨_, _, _, _, rfl⟩
theorem writeRow (a : Addr) (ws : List Word) : Statement (.writeRow a ws) := ⟨_, _, _, _, rfl⟩
theorem writeMaxProgSize (a : Addr) (ws : List Word) : Statement (.writeMaxProgSize a ws) := ⟨_, _, _, _, rfl⟩
theorem startApp : Statement .startApp := ⟨_, _, _, _, rfl⟩
theorem unknown (code : Byte) : Statement (.unknown code) := ⟨_, _, _, _, rfl⟩
theorem startMarker : Statement .startMarker := ⟨_, rfl⟩
theorem noise (b : Byte) : Statement (.noise b) := ⟨_, rfl⟩
theorem escapeMarker : Statement .escapeMarker := ⟨_, rfl⟩
theorem endMarker : Statement .endMarker := ⟨_, rfl⟩
theorem data (b : Byte) : Statement (.data b) := ⟨_, rfl⟩
theorem escapedByte (b : Byte) : Statement (.escapedByte b) := ⟨_, rfl⟩

end Sys2Proof.Laws.CommandByte
end

