-- ==== Sys2Proof/Laws/Receive.lean ====
section
/-! SUPPORT. What an end marker and a receive step can do, said once. -/

namespace Sys2Proof.Machine

/-- What the end of a frame has done before the wipe: events `es`, and the state `u` the wipe applies to. -/
inductive FrameVerdict (s u : State) (es : List Event) : Prop where
  /-- E7 or E2: not verified. -/
  | unverified (r : DiscardReason) (hr : r.number = 7 ∨ r.number = 2) (hes : es = [.discard r])
      (hu : u = (s.withPState .endOfMessage).emitAll es)
  /-- E8 or E6: verified, and no command to perform. -/
  | dropped (r : DiscardReason) (hr : r.number = 8 ∨ r.number = 6) (hes : es = [.live, .discard r])
      (hi : 2 ≤ s.i) (hc : cksumOk s = true) (hu : u = (s.withPState .endOfMessage).emitAll es)
  /-- Verified, and a command performed. -/
  | performed (k : Command) (es' : List Event) (hes : es = .live :: es') (hi : 2 ≤ s.i) (hc : cksumOk s = true)
      (hk : decodePayload s.cfg (payload s) = .ok k)
      (hx : exec k.toInstr ((s.withPState .endOfMessage).emit .live) = .next u)
      (he : CommandEffect k ((s.withPState .endOfMessage).emit .live) u es')

/-- Everything an end marker can do (R183, R188). -/
theorem execEndMarker_cases (s : State) :
    (s.cfg.cap < s.i ∧ execEndMarker s = .fault .bufferBound) ∨
    (s.i ≤ s.cfg.cap ∧ s.txAccepts ≠ none ∧ ∃ tr, execEndMarker s = .fault (.sinkBlocked tr)) ∨
    (s.i ≤ s.cfg.cap ∧ ∃ u es, FrameVerdict s u es ∧
      execEndMarker s = .next (if u.mode = .bootWait then wipe u else u)) := by
  by_cases hcap : s.i ≤ s.cfg.cap
  swap
  · exact .inl ⟨by omega, by simp [execEndMarker, endOfMessage, hcap]⟩
  have he : execEndMarker s = andThen (judgeFrame (s.withPState .endOfMessage)) finishFrame := by
    simp [execEndMarker, endOfMessage, hcap]
  have hnext : ∀ u es, FrameVerdict s u es → judgeFrame (s.withPState .endOfMessage) = .next u →
      execEndMarker s = .next (if u.mode = .bootWait then wipe u else u) := by
    intro u es _ h
    rw [he, h, andThen_next, finishFrame_eq]
  rcases judgeFrame_cases (s.withPState .endOfMessage) with ⟨h1, h2⟩ | ⟨h1, hc, h2⟩ | ⟨h1, hc, h2⟩
  · have v := FrameVerdict.unverified (s := s) (.shortFrame s.i) (.inl rfl) rfl rfl
    exact .inr (.inr ⟨hcap, _, _, v, hnext _ _ v h2⟩)
  · have v := FrameVerdict.unverified (s := s) .checksumMismatch (.inr rfl) rfl rfl
    exact .inr (.inr ⟨hcap, _, _, v, hnext _ _ v h2⟩)
  · rcases dispatch_cases (payload (s.withPState .endOfMessage)) ((s.withPState .endOfMessage).emit .live) with
      ⟨n, hd, e⟩ | ⟨c, n, hd, e⟩ | ⟨k, hd, e⟩
    · have v := FrameVerdict.dropped (s := s) (.noCommand n) (.inl rfl) rfl h1 hc rfl
      refine .inr (.inr ⟨hcap, _, _, v, hnext _ _ v (h2.trans (e.trans ?_))⟩)
      simp [State.emit, State.emitAll]
    · have v := FrameVerdict.dropped (s := s) (.shortArgs c n) (.inr rfl) rfl h1 hc rfl
      refine .inr (.inr ⟨hcap, _, _, v, hnext _ _ v (h2.trans (e.trans ?_))⟩)
      simp [State.emit, State.emitAll]
    · rcases exec_command_cases k ((s.withPState .endOfMessage).emit .live) with ⟨u, es, hx, hce⟩ | ⟨ha, tr, hx⟩
      · have v := FrameVerdict.performed (s := s) k es rfl h1 hc hd hx hce
        exact .inr (.inr ⟨hcap, _, _, v, hnext _ _ v (h2.trans (e.trans hx))⟩)
      · exact .inr (.inl ⟨hcap, ha, tr, by rw [he, h2, e, hx]; rfl⟩)

/-- What a receive step does, by parser state and byte (R180 to R185). -/
inductive ReceiveRule (b : Byte) (s : State) : Result → Prop where
  | atEnd (h : s.pstate = .endOfMessage) : ReceiveRule b s (.fault .endOfMessageAtReceive)
  | start (h : s.pstate = .waitForStart) (hb : b = startMarkerByte) :
      ReceiveRule b s (.next ((s.emit (.rx b)).withPState .readVerbatim))
  | noise (h : s.pstate = .waitForStart) (hb : b ≠ startMarkerByte) :
      ReceiveRule b s (.next ((s.emit (.rx b)).emit (.discard (.framingNoise b))))
  | escape (h : s.pstate = .readVerbatim) (hb : b = escapeMarkerByte) :
      ReceiveRule b s (.next ((s.emit (.rx b)).withPState .readEscaped))
  | ending (h : s.pstate = .readVerbatim) (hb : b = endMarkerByte) :
      ReceiveRule b s (execEndMarker (s.emit (.rx b)))
  | data (h : s.pstate = .readVerbatim) (hb : b ≠ escapeMarkerByte) (hb' : b ≠ endMarkerByte) :
      ReceiveRule b s (append b (s.emit (.rx b)))
  | escaped (h : s.pstate = .readEscaped) :
      ReceiveRule b s (append (b ^^^ escapeXor) ((s.emit (.rx b)).withPState .readVerbatim))

/-- Everything a receive step can do. -/
theorem recvByte_rule (b : Byte) (s : State) : ReceiveRule b s (recvByte b s) := by
  cases hp : s.pstate with
  | waitForStart =>
    by_cases hb : b = startMarkerByte
    · have e : recvByte b s = .next ((s.emit (.rx b)).withPState .readVerbatim) := by
        simp [recvByte, hp, decode, decodeWire, hb, exec, execStartMarker]
      rw [e]; exact .start hp hb
    · have e : recvByte b s = .next ((s.emit (.rx b)).emit (.discard (.framingNoise b))) := by
        simp [recvByte, hp, decode, decodeWire, hb, exec, execNoise, raiseDiscard_eq]
      rw [e]; exact .noise hp hb
  | readVerbatim =>
    by_cases hb : b = escapeMarkerByte
    · have e : recvByte b s = .next ((s.emit (.rx b)).withPState .readEscaped) := by
        simp [recvByte, hp, decode, decodeWire, hb, exec, execEscapeMarker]
      rw [e]; exact .escape hp hb
    · by_cases hb' : b = endMarkerByte
      · have e : recvByte b s = execEndMarker (s.emit (.rx b)) := by
          subst hb'
          simp [recvByte, hp, decode, decodeWire, show endMarkerByte ≠ escapeMarkerByte by decide, exec]
        rw [e]; exact .ending hp hb'
      · have e : recvByte b s = append b (s.emit (.rx b)) := by
          simp [recvByte, hp, decode, decodeWire, hb, hb', exec, execData]
        rw [e]; exact .data hp hb hb'
  | readEscaped =>
    have e : recvByte b s = append (b ^^^ escapeXor) ((s.emit (.rx b)).withPState .readVerbatim) := by
      simp [recvByte, hp, decode, decodeWire, exec, execEscapedByte]
    rw [e]; exact .escaped hp
  | endOfMessage =>
    have e : recvByte b s = .fault .endOfMessageAtReceive := by simp [recvByte, hp, decode, decodeWire]
    rw [e]; exact .atEnd hp

end Sys2Proof.Machine
end

