-- ==== Sys2Proof/Laws/Reset.lean ====
section
/-! SUPPORT. What a reset leaves, and what the events of a step do to the environment. -/

namespace Sys2Proof.Machine

@[simp] theorem State.resetBlock_cfg (s : State) : s.resetBlock.cfg = s.cfg := rfl
@[simp] theorem State.resetBlock_mode (s : State) : s.resetBlock.mode = .init := rfl
@[simp] theorem State.resetBlock_pstate (s : State) : s.resetBlock.pstate = .waitForStart := rfl
@[simp] theorem State.resetBlock_i (s : State) : s.resetBlock.i = 0 := rfl
@[simp] theorem State.resetBlock_buf (s : State) : s.resetBlock.buf = [] := rfl
@[simp] theorem State.resetBlock_sum1 (s : State) : s.resetBlock.sum1 = 0#8 := rfl
@[simp] theorem State.resetBlock_sum2 (s : State) : s.resetBlock.sum2 = 0#8 := rfl
@[simp] theorem State.resetBlock_trace (s : State) : s.resetBlock.trace = [] := rfl
@[simp] theorem State.resetBlock_phase (s : State) : s.resetBlock.phase = .service := rfl
@[simp] theorem State.resetBlock_rx (s : State) : s.resetBlock.rx = s.rx := rfl
@[simp] theorem State.resetBlock_enter (s : State) : s.resetBlock.enter = s.enter := rfl
@[simp] theorem State.resetBlock_abort (s : State) : s.resetBlock.abort = s.abort := rfl
@[simp] theorem State.resetBlock_txAccepts (s : State) : s.resetBlock.txAccepts = s.txAccepts := rfl
@[simp] theorem State.resetBlock_flash (s : State) : s.resetBlock.flash = s.flash := rfl

/-- An event changes the environment only, and not the ENTER input. -/
theorem Event.environment_eq (e : Event) (s : State) :
    e.environment s = { s with
      rx := (e.environment s).rx, abort := (e.environment s).abort
      txAccepts := (e.environment s).txAccepts, flash := (e.environment s).flash } := by
  cases e <;> rfl

theorem Event.environment_flash_wf (e : Event) {s : State} (h : s.flash.wf = true) :
    (e.environment s).flash.wf = true := by
  cases e with
  | erasePage a => exact FlashAgent.wf_erasePage h _ _
  | readWord a w => exact FlashAgent.wf_read h _
  | writeRow a ws => exact FlashAgent.wf_writeWords h _ _
  | writeDoubleWord a x y => exact FlashAgent.wf_writeWords h _ _
  | _ => exact h

theorem replay_append (a b : List Event) (s : State) : replay (a ++ b) s = replay b (replay a s) := by
  induction a generalizing s with
  | nil => rfl
  | cons e a ih => exact ih (e.environment s)

/-- Events change the environment only, and not the ENTER input. -/
theorem replay_eq (es : List Event) (s : State) :
    replay es s = { s with
      rx := (replay es s).rx, abort := (replay es s).abort
      txAccepts := (replay es s).txAccepts, flash := (replay es s).flash } := by
  induction es generalizing s with
  | nil => rfl
  | cons e es ih => rw [replay, ih, Event.environment_eq]

theorem replay_flash_wf (es : List Event) {s : State} (h : s.flash.wf = true) : (replay es s).flash.wf = true := by
  induction es generalizing s with
  | nil => exact h
  | cons e es ih => exact ih (e.environment_flash_wf h)

/-- Transmitted bytes use up the sink's bound one by one. -/
theorem replay_tx (l : List Byte) (s : State) :
    replay (l.map .tx) s = s.withTxAccepts (s.txAccepts.map (· - l.length)) := by
  induction l generalizing s with
  | nil => cases s with
    | mk cfg mode pstate i buf s1 s2 trace phase rx enter abort acc flash => cases acc <;> rfl
  | cons b l ih =>
    rw [List.map_cons, replay, ih]
    cases h : s.txAccepts with
    | none => simp [Event.environment, State.withTxAccepts, h]
    | some n => simp [Event.environment, State.withTxAccepts, h, Nat.sub_sub, Nat.add_comm 1]

/-- The events of a step that answers are what it appends to the trace. -/
theorem stepEvents_of_next {s t : State} {es : List Event} (h : step s = .next t) (ht : t.trace = s.trace ++ es) :
    stepEvents s = es := by
  simp [stepEvents, h, ht]

/-- A reset before the first event of a step is a reset between two steps. -/
theorem resetWithin_zero (s : State) : s.resetWithin 0 = s.resetBlock := rfl

/-- What a reset leaves, whatever the moment: the block reset, its configuration and ENTER kept, the rest of the
environment as the events before the reset left it. -/
theorem resetWithin_eq (k : Nat) (s : State) :
    s.resetWithin k = { State.resetWith s.cfg with
      rx := (replay ((stepEvents s).take k) s).rx, enter := s.enter
      abort := (replay ((stepEvents s).take k) s).abort
      txAccepts := (replay ((stepEvents s).take k) s).txAccepts
      flash := (replay ((stepEvents s).take k) s).flash } := by
  rw [State.resetWithin, replay_eq]
  rfl

end Sys2Proof.Machine
end

