-- ==== Sys2Proof/Tests/Slice0.lean ====
section
/-! SUPPORT. The model's own tests, one step each on a small state: the smoke test of WellFormed, decoding from words
written out from the spec, the vectors of spec/95_test_vectors.md (their ids stand in the comments; expected results are
the spec's), and a witness for the hypotheses of every statement that has some. -/

namespace Sys2Proof.Tests

set_option Elab.async false

open Sys2Proof Sys2Proof.Machine

/-! ### Helpers -/

/-- The next state, if there is one. -/
def after : Result → Option State
  | .next s => some s
  | .fault _ => none
  | .refused _ => none

theorem next_of_after {o : Result} (h : (after o).isSome = true) : ∃ t, o = .next t := by
  cases o with
  | next t => exact ⟨t, rfl⟩
  | fault r => cases h
  | refused r => cases h

/-- The start state of the vectors (95 §1): configuration EX, in the drain, with the reference flash model. -/
def ready : State :=
  { State.reset with mode := .bootWait, phase := .drain, flash := .reference 0x00FFFFFF#32 [] }

/-- The same with flash F0 (95 §1). -/
def readyF0 : State :=
  { ready with flash := .reference 0x00FFFFFF#32 [(0x0800, 0x00123456#32), (0x0802, 0x00ABCDEF#32)] }

/-- `s` inside a frame, with the logical bytes `l` stored and the raw byte `b` about to be taken. -/
def inFrame (l : List Byte) (b : Byte) (s : State) : State :=
  { s with pstate := .readVerbatim, buf := storeFrom 0 l [], i := l.length, rx := [some b] }

/-- What the step that takes the end marker of the frame `l` adds to the trace. -/
def ended (l : List Byte) (s : State) : Option (List Event) :=
  (after (step (inFrame l 0x7F#8 s))).map (·.trace)

/-- The events of a performed query: the end marker taken, liveness, the raw bytes of the reply. -/
def replyEvents (raw : List Byte) : List Event := [.rx 0x7F#8, .live] ++ raw.map .tx

/-! ### WellFormed smoke (R109, R110, R180) -/

theorem test_illformed_row_of_three_words :
    (Instr.writeRow 0x0800#32 [1#32, 2#32, 3#32]).wellFormed Config.configured = false := by decide

theorem test_illformed_bulk_of_four_words :
    (Instr.writeMaxProgSize 0x0800#32 [1#32, 2#32, 3#32, 4#32]).wellFormed Config.configured = false := by decide

theorem test_illformed_unknown_of_known_code : (Instr.unknown 0x31#8).wellFormed Config.configured = false := by decide

theorem test_illformed_noise_of_start_marker : (Instr.noise 0xF7#8).wellFormed Config.configured = false := by decide

theorem test_illformed_data_of_escape_marker : (Instr.data 0xF6#8).wellFormed Config.configured = false := by decide

theorem test_illformed_data_of_end_marker : (Instr.data 0x7F#8).wellFormed Config.configured = false := by decide

/-! ### Decoding: every constructor from bytes written out from the spec -/

/-- A request of code `c` with no argument byte: `LEN = 0` (R101, R105), then the code. -/
def bare (c : Byte) : Except Reject Instr := decode Config.configured .payload [0x00#8, 0x00#8, c]

/-- The codes of R108 without arguments. -/
theorem test_decode_bare_commands :
    [bare 0x00#8, bare 0x01#8, bare 0x02#8, bare 0x03#8, bare 0x04#8, bare 0x05#8, bare 0x06#8, bare 0x07#8,
      bare 0x40#8, bare 0x08#8, bare 0xFF#8].map Except.toOption =
    [Instr.readPlatform, .readVersion, .readRowLen, .readPageLen, .readProgLen, .readMaxProgSize, .readAppStartAddr,
      .readBootStartAddr, .startApp, .unknown 0x08#8, .unknown 0xFF#8].map some := by decide +kernel

/-- V-D1. -/
theorem test_decode_erase_page : (decode Config.configured .payload
    [0x04#8, 0x00#8, 0x10#8, 0x00#8, 0x08#8, 0x00#8, 0x00#8]).toOption = some (.erasePage 0x0800#32) := by
  decide +kernel

/-- V-B6: four different address bytes would swap here. -/
theorem test_decode_read_addr : (decode Config.configured .payload
    [0x04#8, 0x00#8, 0x20#8, 0x78#8, 0x56#8, 0x34#8, 0x12#8]).toOption = some (.readAddr 0x12345678#32) := by
  decide +kernel

/-- V-D7. -/
theorem test_decode_read_max : (decode Config.configured .payload
    [0x04#8, 0x00#8, 0x21#8, 0xFC#8, 0xFF#8, 0xFF#8, 0xFF#8]).toOption = some (.readMax 0xFFFFFFFC#32) := by
  decide +kernel

/-- V-B5: the logical bytes of a row with all three marker values. -/
theorem test_decode_write_row : (decode Config.configured .payload
    [0x14#8, 0x00#8, 0x30#8, 0x00#8, 0x08#8, 0x00#8, 0x00#8, 0xF6#8, 0x7F#8, 0xF7#8, 0x00#8, 0xF7#8, 0x00#8, 0x00#8,
      0x00#8, 0x7F#8, 0x00#8, 0x00#8, 0x00#8, 0xF6#8, 0x00#8, 0x00#8, 0x00#8]).toOption =
    some (.writeRow 0x0800#32 [0x00F77FF6#32, 0xF7#32, 0x7F#32, 0xF6#32]) := by decide +kernel

/-- V-D14. -/
theorem test_decode_write_max : (decode Config.configured .payload
    ([0x24#8, 0x00#8, 0x31#8, 0x00#8, 0x00#8, 0x00#8, 0x00#8] ++
      [0x11#8, 0x22#8, 0x33#8, 0x44#8, 0x55#8, 0x66#8, 0x77#8, 0x88#8].flatMap fun b => [b, 0#8, 0#8, 0#8])).toOption =
    some (.writeMaxProgSize 0#32 [0x11#32, 0x22#32, 0x33#32, 0x44#32, 0x55#32, 0x66#32, 0x77#32, 0x88#32]) := by
  decide +kernel

/-- The wire classes (R180 to R185): a marker value is one only in its state (R100). -/
theorem test_decode_wire_classes :
    [(PState.waitForStart, 0xF7#8), (.waitForStart, 0x7F#8), (.readVerbatim, 0xF6#8), (.readVerbatim, 0x7F#8),
      (.readVerbatim, 0xF7#8), (.readVerbatim, 0xD7#8), (.readEscaped, 0x7F#8)].map
      (fun c => (decode Config.configured (.wire c.1) [c.2]).toOption) =
    [Instr.startMarker, .noise 0x7F#8, .escapeMarker, .endMarker, .data 0xF7#8, .data 0xD7#8, .escapedByte 0x7F#8].map
      some := by decide +kernel

/-- No byte step begins in END_OF_MESSAGE (R180); a payload of two bytes has no command (R211); V-D21. -/
theorem test_decode_rejects :
    (decode Config.configured (.wire .endOfMessage) [0x00#8]).toOption = none ∧
    (decode Config.configured (.wire .readVerbatim) []).toOption = none ∧
    (decode Config.configured .payload [0x00#8, 0x00#8]).toOption = none ∧
    (decode Config.configured .payload [0x03#8, 0x00#8, 0x10#8, 0x00#8, 0x08#8, 0x00#8]).toOption = none := by
  decide +kernel

/-- The table's words (log 11). -/
theorem test_decode_table_words :
    [decodeTableWord 8 0x05, decodeTableWord 8 0x40, decodeTableWord 8 0x41, decodeTableWord 8 0xF7,
      decodeTableWord 8 0xF6, decodeTableWord 8 0x7F, decodeTableWord 8 0x30] =
    [Instr.readMaxProgSize, .startApp, .unknown 0x41#8, .startMarker, .escapeMarker, .endMarker,
      .writeRow 0#32 [0#32, 0#32, 0#32, 0#32]].map some := by decide +kernel

/-! ### The checksum and the encoder -/

/-- V-A7, V-A10, V-A13. -/
theorem test_compute :
    compute [0xFF#8, 0xFF#8] 2 = 0xFDFE#16 ∧ compute [0x61#8, 0x62#8, 0x63#8, 0x64#8, 0x65#8] 5 = 0xC3EF#16 ∧
    compute [0xF7#8, 0x7F#8, 0xF6#8] 3 = 0xD96C#16 := by decide +kernel

/-- V-B6: the low checksum byte is escaped. -/
theorem test_frame_escapes_checksum : frameOfBody [0x04#8, 0x00#8, 0x20#8, 0xCA#8, 0x08#8, 0x00#8, 0x00#8] =
    [0xF7#8, 0x04#8, 0x00#8, 0x20#8, 0xCA#8, 0x08#8, 0x00#8, 0x00#8, 0xF6#8, 0xD6#8, 0xFC#8, 0x7F#8] := by
  decide +kernel

/-! ### Informational commands (V-I0 to V-I7) -/

theorem test_read_platform : ended [0x00#8, 0x00#8, 0x00#8, 0x00#8, 0x00#8] ready =
    some (replyEvents [0xF7#8, 0x02#8, 0x00#8, 0x00#8, 0x45#8, 0x58#8, 0x9F#8, 0xEC#8, 0x7F#8]) := by decide +kernel

theorem test_read_version : ended [0x00#8, 0x00#8, 0x01#8, 0x01#8, 0x01#8] ready =
    some (replyEvents [0xF7#8, 0x01#8, 0x00#8, 0x01#8, 0x31#8, 0x33#8, 0x37#8, 0x7F#8]) := by decide +kernel

theorem test_read_row_len : ended [0x00#8, 0x00#8, 0x02#8, 0x02#8, 0x02#8] ready =
    some (replyEvents [0xF7#8, 0x02#8, 0x00#8, 0x02#8, 0x04#8, 0x00#8, 0x08#8, 0x18#8, 0x7F#8]) := by decide +kernel

/-- V-C12: the length field is not read; V-I8: extra bytes are ignored. -/
theorem test_read_row_len_wrong_length : ended [0x99#8, 0x99#8, 0x02#8, 0x34#8, 0xFF#8] ready =
    some (replyEvents [0xF7#8, 0x02#8, 0x00#8, 0x02#8, 0x04#8, 0x00#8, 0x08#8, 0x18#8, 0x7F#8]) := by decide +kernel

theorem test_read_page_len : ended [0x00#8, 0x00#8, 0x03#8, 0x03#8, 0x03#8] ready =
    some (replyEvents [0xF7#8, 0x02#8, 0x00#8, 0x03#8, 0x08#8, 0x00#8, 0x0D#8, 0x23#8, 0x7F#8]) := by decide +kernel

theorem test_read_prog_len : ended [0x00#8, 0x00#8, 0x04#8, 0x04#8, 0x04#8] ready =
    some (replyEvents [0xF7#8, 0x04#8, 0x00#8, 0x04#8, 0x00#8, 0x20#8, 0x00#8, 0x00#8, 0x28#8, 0x90#8, 0x7F#8]) := by
  decide +kernel

theorem test_read_max_prog_size : ended [0x00#8, 0x00#8, 0x05#8, 0x05#8, 0x05#8] ready =
    some (replyEvents [0xF7#8, 0x02#8, 0x00#8, 0x05#8, 0x08#8, 0x00#8, 0x0F#8, 0x29#8, 0x7F#8]) := by decide +kernel

theorem test_read_app_start_addr : ended [0x00#8, 0x00#8, 0x06#8, 0x06#8, 0x06#8] ready =
    some (replyEvents [0xF7#8, 0x02#8, 0x00#8, 0x06#8, 0x00#8, 0x08#8, 0x10#8, 0x24#8, 0x7F#8]) := by decide +kernel

theorem test_read_boot_start_addr : ended [0x00#8, 0x00#8, 0x07#8, 0x07#8, 0x07#8] ready =
    some (replyEvents [0xF7#8, 0x02#8, 0x00#8, 0x07#8, 0x00#8, 0x04#8, 0x0D#8, 0x23#8, 0x7F#8]) := by decide +kernel

/-! ### Flash and control commands -/

/-- V-D1: the page of 0x0800 is erased, F0's words with it. -/
theorem test_erase_page :
    (after (step (inFrame [0x04#8, 0x00#8, 0x10#8, 0x00#8, 0x08#8, 0x00#8, 0x00#8, 0x1C#8, 0x84#8] 0x7F#8
      readyF0))).map (fun t => (t.trace, t.flash)) =
    some ([.rx 0x7F#8, .live, .erasePage 0x0800#32], .reference 0x00FFFFFF#32 []) := by decide +kernel

/-- V-D19: erasing page 0 writes the jump pair back; `J1 = 0`. -/
theorem test_erase_page_zero :
    (after (step (inFrame [0x04#8, 0x00#8, 0x10#8, 0x00#8, 0x00#8, 0x00#8, 0x00#8, 0x14#8, 0x6C#8] 0x7F#8
      ready))).map (fun t => (t.trace, t.flash)) =
    some ([.rx 0x7F#8, .live, .erasePage 0#32, .writeDoubleWord 0#32 0x00040400#32 0#32],
      .reference 0x00FFFFFF#32 [(0, 0x00040400#32), (2, 0#32)]) := by decide +kernel

/-- V-D4. -/
theorem test_read_addr :
    ended [0x04#8, 0x00#8, 0x20#8, 0x00#8, 0x08#8, 0x00#8, 0x00#8, 0x2C#8, 0xD4#8] readyF0 =
    some ([.rx 0x7F#8, .live, .readWord 0x0800#32 0x00123456#32] ++
      [0xF7#8, 0x08#8, 0x00#8, 0x20#8, 0x00#8, 0x08#8, 0x00#8, 0x00#8, 0x56#8, 0x34#8, 0x12#8, 0x00#8, 0xCC#8, 0xC8#8,
        0x7F#8].map .tx) := by decide +kernel

/-- V-D7: the addresses wrap mod 2^32. -/
theorem test_read_max_wraps :
    ended [0x04#8, 0x00#8, 0x21#8, 0xFC#8, 0xFF#8, 0xFF#8, 0xFF#8, 0x1E#8, 0xAB#8] ready =
    some ([.rx 0x7F#8, .live] ++
      [0xFFFFFFFC#32, 0xFFFFFFFE#32, 0x0#32, 0x2#32, 0x4#32, 0x6#32, 0x8#32, 0xA#32].map
        (fun a => .readWord a 0x00FFFFFF#32) ++
      ([0xF7#8, 0x24#8, 0x00#8, 0x21#8, 0xFC#8, 0xFF#8, 0xFF#8, 0xFF#8] ++
        (List.replicate 8 [0xFF#8, 0xFF#8, 0xFF#8, 0x00#8]).flatten ++ [0x26#8, 0xB3#8, 0x7F#8]).map .tx) := by
  decide +kernel

/-- The argument bytes of WRITE_ROW at `lo, hi` with the words 1, 2, 3, 4 (V-D8 to V-D12). -/
def row1234 (lo hi : Byte) : List Byte :=
  [0x14#8, 0x00#8, 0x30#8, lo, hi, 0x00#8, 0x00#8] ++ [1#8, 2#8, 3#8, 4#8].flatMap fun b => [b, 0#8, 0#8, 0#8]

/-- V-D12: a row that begins below the boot region and reaches into it is written. -/
theorem test_write_row_into_boot :
    (after (step (inFrame (row1234 0xFC#8 0x03#8 ++ [0x4D#8, 0xF5#8]) 0x7F#8 ready))).map
      (fun t => (t.trace, t.flash)) =
    some ([.rx 0x7F#8, .live, .writeRow 0x03FC#32 [1#32, 2#32, 3#32, 4#32]],
      .reference 0x00FFFFFF#32 [(0x03FC, 1#32), (0x03FE, 2#32), (0x0400, 3#32), (0x0402, 4#32)]) := by decide +kernel

/-- V-D9: one address below `IVT_BASE` is rejected. -/
theorem test_write_row_below_ivt : ended (row1234 0xFF#8 0x01#8 ++ [0x4E#8, 0x0B#8]) ready =
    some [.rx 0x7F#8, .live, .discard (.protection 0x01FF#32)] := by decide +kernel

/-- The bytes of WRITE_MAX_PROG_SIZE at `lo, hi` with the words `l` (V-D14 to V-D18). -/
def bulk (lo hi : Byte) (l : List Byte) : List Byte :=
  [0x24#8, 0x00#8, 0x31#8, lo, hi, 0x00#8, 0x00#8] ++ l.flatMap fun b => [b, 0#8, 0#8, 0#8]

/-- V-D14: the jump pair stands in the place of the first two words. -/
theorem test_write_max_zero :
    ended (bulk 0x00#8 0x00#8 [0x11#8, 0x22#8, 0x33#8, 0x44#8, 0x55#8, 0x66#8, 0x77#8, 0x88#8] ++ [0xB9#8, 0x71#8])
      ready =
    some [.rx 0x7F#8, .live, .writeRow 0#32 [0x00040400#32, 0#32, 0x33#32, 0x44#32],
      .writeRow 8#32 [0x55#32, 0x66#32, 0x77#32, 0x88#32]] := by decide +kernel

/-- V-D18: the last address of the boot region. -/
theorem test_write_max_in_boot :
    ended (bulk 0xFE#8 0x07#8 [1#8, 2#8, 3#8, 4#8, 5#8, 6#8, 7#8, 8#8] ++ [0x7E#8, 0x1E#8]) ready =
    some [.rx 0x7F#8, .live, .discard (.protection 0x07FE#32)] := by decide +kernel

/-- V-D25: nothing is wiped, extra bytes are ignored. -/
theorem test_start_app :
    (after (step (inFrame [0x02#8, 0x00#8, 0x40#8, 0x01#8, 0x02#8, 0x45#8, 0xCE#8] 0x7F#8 ready))).map
      (fun t => (t.trace, t.mode, t.pstate, t.i)) =
    some ([.rx 0x7F#8, .live, .jumpToApplication 0x0800#32], .runApplication, .endOfMessage, 7) := by decide +kernel

/-- V-D23. -/
theorem test_unknown_code : ended [0x00#8, 0x00#8, 0xFF#8, 0xFF#8, 0xFF#8] ready =
    some [.rx 0x7F#8, .live, .discard (.unknownCommand 0xFF#8)] := by decide +kernel

/-! ### Wire classes -/

/-- V-C1, first and last byte. -/
theorem test_noise_and_start :
    (after (step { ready with rx := [some 0x7F#8] })).map (fun t => (t.trace, t.pstate)) =
      some ([.rx 0x7F#8, .discard (.framingNoise 0x7F#8)], .waitForStart) ∧
    (after (step { ready with rx := [some 0xF7#8] })).map (fun t => (t.trace, t.pstate, t.i)) =
      some ([.rx 0xF7#8], .readVerbatim, 0) := by decide +kernel

/-- V-C2. -/
theorem test_escape_marker : (after (step (inFrame [] 0xF6#8 ready))).map (fun t => (t.trace, t.pstate, t.i)) =
    some ([.rx 0xF6#8], .readEscaped, 0) := by decide +kernel

/-- V-C3: the start marker is data inside a frame. -/
theorem test_data_start_marker : (after (step (inFrame [] 0xF7#8 ready))).map (fun t => (t.pstate, t.i, t.buf)) =
    some (.readVerbatim, 1, [(0, 0xF7#8)]) := by decide +kernel

/-- V-C9: the 48th data byte. -/
theorem test_data_overflow :
    (after (step (inFrame (List.replicate 47 0x11#8) 0x11#8 ready))).map (fun t => (t.trace, t.pstate, t.i, t.buf)) =
    some ([.rx 0x11#8, .discard .overflow], .waitForStart, 0, []) := by decide +kernel

/-- V-B3: `F6 5F` is the end marker's value as data. -/
theorem test_escaped_byte :
    (after (step { inFrame [0x05#8] 0x5F#8 ready with pstate := .readEscaped })).map (fun t => (t.pstate, t.i, t.buf)) =
    some (.readVerbatim, 2, [(0, 0x05#8), (1, 0x7F#8)]) := by decide +kernel

/-- P2: a wrong checksum gives no liveness, no reply, no erase, and wipes the receiver. -/
theorem test_end_marker_mismatch :
    (after (step (inFrame [0x04#8, 0x00#8, 0x10#8, 0x00#8, 0x08#8, 0x00#8, 0x00#8, 0x00#8, 0x00#8] 0x7F#8
      readyF0))).map (fun t => (t.trace, t.pstate, t.i, t.buf)) =
    some ([.rx 0x7F#8, .discard .checksumMismatch], .waitForStart, 0, []) := by decide +kernel

/-- V-C6. -/
theorem test_end_marker_short_frame : ended [0x05#8] ready = some [.rx 0x7F#8, .discard (.shortFrame 1)] := by
  decide +kernel

/-! ### Session -/

/-- P8 (a). -/
theorem test_startup_without_entry :
    (after (step { State.reset with enter := false })).map (fun t => (t.trace, t.mode, t.pstate)) =
    some ([.enter false, .jumpToApplication 0x0800#32], .runApplication, .waitForStart) := by decide +kernel

/-- The first step after reset runs a placed word (log 11): READ_ROW_LEN's reply is V-I2's. -/
theorem test_fetch_word : (after (step (State.reset.withFetchWord 8 0x02))).map (·.trace) =
    some (replyEvents [0xF7#8, 0x02#8, 0x00#8, 0x02#8, 0x04#8, 0x00#8, 0x08#8, 0x18#8, 0x7F#8]) := by decide +kernel

/-! ### Witnesses: the hypotheses of the statements can be met -/

theorem ready_inv : Inv ready :=
  ⟨rfl, rfl, fun _ => ⟨by decide, fun _ => rfl, by decide, fun _ _ => rfl⟩, fun h => by cases h⟩

theorem witness_DecodeOfEncodeIsTheInstruction :
    (Instr.writeRow 0xFFFFFFFF#32 [0xF7#32, 1#32, 2#32, 3#32]).wellFormed Config.configured = true ∧
    (Instr.unknown 0xFF#8).wellFormed Config.configured = true ∧
    (Instr.data 0xF7#8).wellFormed Config.configured = true ∧
    (Instr.noise 0x7F#8).wellFormed Config.configured = true := by decide

theorem witness_DecodedInstructionIsWellFormed :
    decode Config.configured (.wire .readEscaped) [0x7F#8] = .ok (.escapedByte 0x7F#8) ∧
      PState.readEscaped ≠ .endOfMessage := ⟨rfl, by decide⟩

/-- Lengths either side of `REQ` for an address and for a row, and a payload of two bytes. -/
theorem witness_ArgumentLengthRule :
    [0#8, 0#8].length < 3 ∧ 0x10#8 ∈ commandCodes ∧ 0x30#8 ∈ commandCodes ∧
    (List.replicate 3 0#8).length < req Config.configured 0x10#8 ∧
    req Config.configured 0x10#8 ≤ (List.replicate 4 0#8).length ∧
    (List.replicate 19 0#8).length < req Config.configured 0x30#8 ∧
    req Config.configured 0x30#8 ≤ (List.replicate 20 0#8).length := by decide

/-- V-B7: the escape marker stands inside the frame of the code 0x7F. -/
theorem witness_NoMarkerInsideFrame :
    rawFrame 0x7F#8 [] = [0xF7#8] ++ ([0x00#8, 0x00#8] ++ [0xF6#8] ++ [0x5F#8, 0xF6#8, 0x5F#8, 0xF6#8, 0x5F#8]) ++
      [0x7F#8] := by decide +kernel

theorem witness_ChecksumFormsAgree : ready.sum1 = 0#8 ∧ ready.sum2 = 0#8 := ⟨rfl, rfl⟩

/-- A sink without a bound, and one that accepts exactly a reply of 9 bytes. -/
theorem witness_queries : sinkAccepts ready 65536 ∧
    sinkAccepts { ready with txAccepts := some 9 } (rawFrame 0x02#8 [0x04#8, 0x00#8]).length := by
  constructor
  · intro m h; cases h
  · intro m h; cases h; decide +kernel

theorem witness_InformationalCommandsIdempotent : ∃ t u, exec .readRowLen ready = .next t ∧
    exec .readRowLen t = .next u ∧ (Instr.readRowLen, 0x02#8, [0x04#8, 0x00#8]) ∈ queryReplies ready.cfg := by
  obtain ⟨t, ht⟩ := next_of_after (o := exec .readRowLen ready) (by decide +kernel)
  obtain ⟨u, hu⟩ := next_of_after (o := andThen (exec .readRowLen ready) (exec .readRowLen)) (by decide +kernel)
  rw [ht] at hu
  exact ⟨t, u, ht, hu, by decide +kernel⟩

/-- A sink that accepts all but the last byte of a reply, for a query, READ_ADDR and READ_MAX. -/
theorem witness_BlockedSinkStopsReply :
    8 < (rawFrame 0x02#8 [0x04#8, 0x00#8]).length ∧
    14 < (rawFrame 0x20#8 (bytes32 0x0800#32 ++ bytes32 (readyF0.flash.read 0x0800#32).1)).length ∧
    42 < 4 * ready.cfg.maxProgSize + 11 := by decide +kernel

/-- Both ends of the boot region, the addresses next to it, and 0. -/
theorem witness_ErasePageEffect :
    (ready.cfg.bootBase ≤ 0x0400#32 ∧ 0x0400#32 < ready.cfg.bootEnd) ∧
    (ready.cfg.bootBase ≤ 0x07FF#32 ∧ 0x07FF#32 < ready.cfg.bootEnd) ∧
    ¬ (ready.cfg.bootBase ≤ 0x03FF#32 ∧ 0x03FF#32 < ready.cfg.bootEnd) ∧
    ¬ (ready.cfg.bootBase ≤ 0x0800#32 ∧ 0x0800#32 < ready.cfg.bootEnd) ∧
    ¬ (ready.cfg.bootBase ≤ 0#32 ∧ 0#32 < ready.cfg.bootEnd) := by decide +kernel

theorem witness_ReadAddrReplies : sinkAccepts { readyF0 with txAccepts := some 15 }
    (rawFrame 0x20#8 (bytes32 0x0800#32 ++ bytes32 (readyF0.flash.read 0x0800#32).1)).length := by
  intro m h; cases h; decide +kernel

theorem witness_ReadMaxReplies : sinkAccepts { readyF0 with txAccepts := some 84 } (8 * readyF0.cfg.maxProgSize + 20) ∧
    1 < readyF0.cfg.maxProgSize ∧
    readyF0.flash.wordAt (0x0800#32 + BitVec.ofNat 32 (2 * 1)) = some 0x00ABCDEF#32 := by
  refine ⟨?_, by decide, by decide +kernel⟩
  intro m h; cases h; decide

/-- Rejected just below `IVT_BASE`, accepted at it, rejected at the boot region's start. -/
theorem witness_WriteRowEffect :
    0x01FF#32 < ready.cfg.ivtBase ∧
    (¬ (ready.cfg.bootBase ≤ 0x0200#32 ∧ 0x0200#32 < ready.cfg.bootEnd) ∧ ready.cfg.ivtBase ≤ 0x0200#32) ∧
    (ready.cfg.bootBase ≤ 0x0400#32 ∧ 0x0400#32 < ready.cfg.bootEnd) := by decide +kernel

theorem witness_WriteMaxProgSizeEffect :
    (List.replicate 8 0xF7#32).length = ready.cfg.maxProgSize ∧
    (ready.cfg.bootBase ≤ 0x07FF#32 ∧ 0x07FF#32 < ready.cfg.bootEnd) ∧
    ¬ (ready.cfg.bootBase ≤ 0x0800#32 ∧ 0x0800#32 < ready.cfg.bootEnd) := by decide +kernel

theorem configured_legal : Config.configured.Legal := by decide +kernel

theorem witness_BulkRowsCoverTheWords : Config.configured.Legal ∧
    (List.replicate 8 1#32).length = Config.configured.maxProgSize ∧ (0x0800#32 : Addr) ≠ 0#32 :=
  ⟨configured_legal, by decide, by decide⟩

/-- V-D24. -/
theorem witness_StartAppEffect : ready.cfg.Legal ∧ 2 ≤ (inFrame [0x00#8, 0x00#8, 0x40#8, 0x40#8, 0x40#8] 0x7F#8 ready).i ∧
    (inFrame [0x00#8, 0x00#8, 0x40#8, 0x40#8, 0x40#8] 0x7F#8 ready).i ≤ ready.cfg.cap ∧
    cksumOk (inFrame [0x00#8, 0x00#8, 0x40#8, 0x40#8, 0x40#8] 0x7F#8 ready) = true ∧
    decodePayload ready.cfg (payload (inFrame [0x00#8, 0x00#8, 0x40#8, 0x40#8, 0x40#8] 0x7F#8 ready)) =
      .ok .startApp := ⟨configured_legal, by decide, by decide, by decide +kernel, rfl⟩

/-- The page of 0x0800 (its first and last word), a row at `IVT_BASE`, a bulk write at 0. -/
theorem witness_ReferenceFlashEffects : readyF0.cfg.Legal ∧ readyF0.flash.wf = true ∧
    inBoot readyF0.cfg 0x0800#32 = false ∧ inBoot readyF0.cfg 0x0200#32 = false ∧ inBoot readyF0.cfg 0#32 = false ∧
    (∃ t, exec (.erasePage 0x0800#32) readyF0 = .next t) ∧ (∃ t, exec (.erasePage 0#32) readyF0 = .next t) ∧
    (∃ t, exec (.writeRow 0x0200#32 [1#32, 2#32, 3#32, 4#32]) readyF0 = .next t) ∧
    (∃ t, exec (.writeMaxProgSize 0#32 (List.replicate 8 9#32)) readyF0 = .next t) ∧
    readyF0.cfg.ivtBase ≤ 0x0200#32 ∧ 0x0800 - 0x0800 % (readyF0.cfg.pageSize * 2) ≤ 0x080E :=
  ⟨configured_legal, by decide +kernel, by decide +kernel, by decide +kernel, by decide +kernel,
    next_of_after (by decide +kernel), next_of_after (by decide +kernel), next_of_after (by decide +kernel),
    next_of_after (by decide +kernel), by decide +kernel, by decide⟩

/-- All of a sequence, and none of it. -/
theorem witness_ChecksumBytesAreSums : 2 ≤ [0xFF#8, 0xFF#8].length ∧ 0 ≤ [0xFF#8, 0xFF#8].length := by decide

theorem witness_BootRegionCommandsAreSilent : ready.cfg.bootBase ≤ 0x07FF#32 ∧ 0x07FF#32 < ready.cfg.bootEnd ∧
    Instr.erasePage 0x07FF#32 ∈ [Instr.erasePage 0x07FF#32, .writeRow 0x07FF#32 [], .writeMaxProgSize 0x07FF#32 []] := by
  decide +kernel

theorem witness_RowsBelowIvtAreSilent : 0x01FF#32 < ready.cfg.ivtBase ∧ 0#32 < ready.cfg.ivtBase := by decide +kernel

theorem witness_ResetVectorSelfHeals : readyF0.cfg.Legal ∧
    readyF0.flash = .reference 0x00FFFFFF#32 [(0x0800, 0x00123456#32), (0x0802, 0x00ABCDEF#32)] ∧
    readyF0.flash.wf = true ∧ inBoot readyF0.cfg 0#32 = false ∧
    (List.replicate 8 0x11#32).length = readyF0.cfg.maxProgSize :=
  ⟨configured_legal, rfl, by decide +kernel, by decide +kernel, by decide⟩

/-- An erase outside the boot region stands in the trace, and the step answers. -/
theorem witness_StepKeepsErasesOutsideBoot : ∃ s t, ErasesOutsideBoot s ∧ Event.erasePage 0x0800#32 ∈ s.trace ∧
    step s = .next t := by
  obtain ⟨t, h⟩ := next_of_after (o := step { ready with trace := [.erasePage 0x0800#32] }) (by decide +kernel)
  refine ⟨_, t, ?_, by simp, h⟩
  intro a ha
  simp only [List.mem_singleton, Event.erasePage.injEq] at ha
  subst ha
  decide +kernel

theorem witness_WaitForStartRule : ready.pstate = .waitForStart ∧ (0x7F#8 : Byte) ≠ 0xF7#8 := ⟨rfl, by decide⟩

theorem witness_EscapeMarkerRule : (inFrame [0x11#8] 0xF6#8 ready).pstate = .readVerbatim := rfl

/-- The cursor at the last place, one before it, and the byte values next to the markers. -/
theorem witness_DataByteRule :
    (inFrame (List.replicate 47 0x11#8) 0xF7#8 ready).buf.wf = true ∧
    (inFrame (List.replicate 47 0x11#8) 0xF7#8 ready).i < ready.cfg.cap ∧
    (inFrame (List.replicate 47 0x11#8) 0xF7#8 ready).i + 1 = ready.cfg.cap ∧
    (inFrame (List.replicate 46 0x11#8) 0xF7#8 ready).i + 1 ≠ ready.cfg.cap ∧
    (inFrame [] 0xF7#8 ready).pstate = .readVerbatim ∧ (0xF7#8 : Byte) ≠ 0xF6#8 ∧ (0xF7#8 : Byte) ≠ 0x7F#8 := by
  decide +kernel

theorem witness_EscapedByteRule :
    ({ inFrame (List.replicate 47 0x11#8) 0xD7#8 ready with pstate := .readEscaped } : State).pstate = .readEscaped ∧
    (inFrame (List.replicate 47 0x11#8) 0xD7#8 ready).i + 1 = ready.cfg.cap ∧
    (inFrame (List.replicate 46 0x11#8) 0xD7#8 ready).i + 1 ≠ ready.cfg.cap ∧
    (inFrame (List.replicate 47 0x11#8) 0xD7#8 ready).buf.wf = true := by decide +kernel

/-- One buffered byte, and two whose value is not the checksum of nothing. -/
theorem witness_UndispatchedFrameRule :
    ready.mode = .bootWait ∧ (inFrame [0x05#8] 0x7F#8 ready).i < 2 ∧
    2 ≤ (inFrame [0x01#8, 0x00#8] 0x7F#8 ready).i ∧ (inFrame [0x01#8, 0x00#8] 0x7F#8 ready).i ≤ ready.cfg.cap ∧
    cksumOk (inFrame [0x01#8, 0x00#8] 0x7F#8 ready) = false := by decide +kernel

/-- V-C7 (no command), V-D21 (short arguments), V-D23 (a command that answers). -/
theorem witness_VerifiedFrameRule :
    (cksumOk (inFrame [0x00#8, 0x00#8] 0x7F#8 ready) = true ∧
      decodePayload ready.cfg (payload (inFrame [0x00#8, 0x00#8] 0x7F#8 ready)) = .error (.noCommand 0)) ∧
    (cksumOk (inFrame [0x03#8, 0x00#8, 0x10#8, 0x00#8, 0x08#8, 0x00#8, 0x1B#8, 0x62#8] 0x7F#8 ready) = true ∧
      decodePayload ready.cfg
        (payload (inFrame [0x03#8, 0x00#8, 0x10#8, 0x00#8, 0x08#8, 0x00#8, 0x1B#8, 0x62#8] 0x7F#8 ready)) =
        .error (.shortArgs 0x10#8 3)) ∧
    (cksumOk (inFrame [0x00#8, 0x00#8, 0x08#8, 0x08#8, 0x08#8] 0x7F#8 ready) = true ∧
      decodePayload ready.cfg (payload (inFrame [0x00#8, 0x00#8, 0x08#8, 0x08#8, 0x08#8] 0x7F#8 ready)) =
        .ok (.unknown 0x08#8)) :=
  ⟨⟨by decide +kernel, rfl⟩, ⟨by decide +kernel, rfl⟩, ⟨by decide +kernel, rfl⟩⟩

/-- A frame that leaves BOOT_WAIT and one that does not. -/
theorem witness_EndOfFrameWipes :
    (∃ t, exec .endMarker (inFrame [0x00#8, 0x00#8, 0x40#8, 0x40#8, 0x40#8] 0x7F#8 ready) = .next t) ∧
    (∃ t, exec .endMarker (inFrame [0x05#8] 0x7F#8 ready) = .next t) ∧
    ready.mode = .bootWait ∧ ready.txAccepts = none :=
  ⟨next_of_after (by decide +kernel), next_of_after (by decide +kernel), rfl, rfl⟩

/-- The longest frame the buffer takes: 42 bytes of data. -/
theorem witness_FrameRoundTrip : ready.cfg.Legal ∧ ready.mode = .bootWait ∧ ready.phase = .drain ∧
    ready.pstate = .waitForStart ∧ ready.i = 0 ∧ ready.buf = [] ∧
    3 + (List.replicate 42 0x7F#8).length + 2 < ready.cfg.cap :=
  ⟨configured_legal, rfl, rfl, rfl, rfl, rfl, by decide⟩

theorem witness_TwoEndMarkersResynchronise : ∃ s t u, Inv s ∧ s.mode = .bootWait ∧ s.phase = .drain ∧
    s.rx = [some 0x7F#8, some 0x7F#8] ∧ step s = .next t ∧ step t = .next u := by
  refine ⟨{ ready with pstate := .readEscaped, rx := [some 0x7F#8, some 0x7F#8] }, ?_⟩
  have h1 := next_of_after
    (o := step { ready with pstate := .readEscaped, rx := [some 0x7F#8, some 0x7F#8] }) (by decide +kernel)
  have h2 := next_of_after
    (o := andThen (step { ready with pstate := .readEscaped, rx := [some 0x7F#8, some 0x7F#8] }) step)
    (by decide +kernel)
  obtain ⟨t, ht⟩ := h1
  obtain ⟨u, hu⟩ := h2
  rw [ht] at hu
  exact ⟨t, u, ⟨rfl, rfl, fun _ => ⟨by decide, fun _ => rfl, by decide, fun _ _ => rfl⟩, fun h => by cases h⟩,
    rfl, rfl, rfl, ht, hu⟩

/-- A cause beside liveness (E5), and one without (E1). -/
theorem witness_CausesAreSilent :
    ended [0x00#8, 0x00#8, 0x08#8, 0x08#8, 0x08#8] ready =
      some [.rx 0x7F#8, .live, .discard (.unknownCommand 0x08#8)] ∧
    (after (step { ready with rx := [some 0x00#8] })).map (·.trace) =
      some [.rx 0x00#8, .discard (.framingNoise 0x00#8)] := by decide +kernel

theorem witness_BlockNeverTraps : ready.cfg.Legal ∧ Inv ready ∧ ready.mode ≠ .runApplication ∧
    ready.txAccepts = none := ⟨configured_legal, ready_inv, by decide, rfl⟩

theorem witness_BufferNeverOverrun : Inv ready := ready_inv

theorem witness_StartupDecisionRule : State.reset.cfg.Legal ∧ State.reset.mode = .init ∧ State.reset.enter = true ∧
    ({ State.reset with enter := false } : State).enter = false := ⟨configured_legal, rfl, rfl, rfl⟩

theorem witness_LoopIterationRule : ready.cfg.Legal ∧ ready.mode = .bootWait ∧ ready.phase = .drain ∧ ready.rx = [] ∧
    ({ ready with rx := [none] } : State).rx = none :: [] ∧ ({ ready with phase := .service } : State).phase = .service ∧
    ({ ready with phase := .poll } : State).phase = .poll ∧ ready.abort = [] ∧
    ({ ready with abort := [false] } : State).abort = false :: [] :=
  ⟨configured_legal, rfl, rfl, rfl, rfl, rfl, rfl, rfl, rfl⟩

theorem witness_AbortLeavesPartialFrame :
    ({ inFrame [0#8, 0#8] 0#8 ready with phase := .poll, abort := [true] } : State).abort = true :: [] ∧
    (inFrame [0#8, 0#8] 0#8 ready).mode = .bootWait ∧ (inFrame [0#8, 0#8] 0#8 ready).cfg.Legal :=
  ⟨rfl, rfl, configured_legal⟩

theorem witness_RunApplicationIsTerminal :
    ({ ready with mode := .runApplication } : State).mode = .runApplication ∧
    (after (step { State.reset with enter := false })).map (·.mode) = some .runApplication := by decide +kernel

/-- The block running, and the block that has left by the same step. -/
theorem witness_StepKeepsJumpLast : JumpEndsTrace { State.reset with enter := false } ∧
    ∃ t, step { State.reset with enter := false } = .next t :=
  ⟨⟨fun _ => rfl, fun h => by cases h⟩, next_of_after (by decide +kernel)⟩

/-- A block that has left, and one stuck on a sink that accepts 8 of a reply's 9 bytes. -/
theorem witness_StopsOfTheStep : ready.cfg.Legal ∧ Inv ready ∧
    (match step { inFrame [0x00#8, 0x00#8, 0x02#8, 0x02#8, 0x02#8] 0x7F#8 ready with txAccepts := some 8 } with
      | .fault (.sinkBlocked trace) => trace.length | _ => 0) = 10 :=
  ⟨configured_legal, ready_inv, by decide +kernel⟩

theorem witness_ResetAtAnyMoment : Inv ready := ready_inv

/-- ERASE_PAGE(0) of V-D19 as a frame about to end. -/
def erasingZero : State := inFrame [0x04#8, 0x00#8, 0x10#8, 0x00#8, 0x00#8, 0x00#8, 0x00#8, 0x14#8, 0x6C#8] 0x7F#8
  { ready with flash := .reference 0x00FFFFFF#32 [(0, 0x00040400#32), (2, 0#32)] }

theorem witness_ResetWindowErasesVector : erasingZero.cfg.Legal ∧ erasingZero.mode = .bootWait ∧
    erasingZero.phase = .drain ∧ erasingZero.pstate = .readVerbatim ∧ erasingZero.rx = some 0x7F#8 :: [] ∧
    2 ≤ erasingZero.i ∧ erasingZero.i ≤ erasingZero.cfg.cap ∧ cksumOk erasingZero = true ∧
    decodePayload erasingZero.cfg (payload erasingZero) = .ok (.erasePage 0#32) ∧
    inBoot erasingZero.cfg 0#32 = false ∧ erasingZero.flash.wf = true ∧ 2 ≤ erasingZero.cfg.pageSize :=
  ⟨configured_legal, rfl, rfl, rfl, rfl, by decide, by decide, by decide +kernel, rfl, by decide +kernel,
    by decide +kernel, by decide⟩

/-- R338: a reset after the erase and before the re-write leaves the reset vector erased; one event later it is there. -/
theorem test_reset_in_erase_window :
    ((erasingZero.resetWithin 3).flash, (erasingZero.resetWithin 3).mode, (erasingZero.resetWithin 3).i) =
      (.reference 0x00FFFFFF#32 [], .init, 0) ∧
    (erasingZero.resetWithin 4).flash = .reference 0x00FFFFFF#32 [(0, 0x00040400#32), (2, 0#32)] := by decide +kernel

theorem witness_ReplayAgreesWithStep : ∃ t, step erasingZero = .next t ∧
    t.trace = erasingZero.trace ++ stepEvents erasingZero := by
  obtain ⟨t, h⟩ := next_of_after (o := step erasingZero) (by decide +kernel)
  refine ⟨t, h, ?_⟩
  have h' : (after (step erasingZero)).map (·.trace) = some (stepEvents erasingZero) := by decide +kernel
  rw [h] at h'
  exact (Option.some.inj h').trans (List.nil_append _).symm

theorem witness_OnlyResetLeavesApplication : ∃ s t, s.mode = .runApplication ∧ Moves s t :=
  ⟨{ ready with mode := .runApplication }, _, rfl, .inr ⟨0, rfl⟩⟩

/-- A step of the invariant's states that answers: the last byte before the overflow. -/
theorem witness_StepKeepsInvariant : Inv ready ∧ ∃ t, step { ready with rx := [some 0xF7#8] } = .next t :=
  ⟨ready_inv, next_of_after (by decide +kernel)⟩

theorem witness_ConfigurationIsReadOnly : ∃ t, step State.reset = .next t := next_of_after (by decide +kernel)

theorem witness_ByteTakenFirst : ∃ t, step (inFrame [0x00#8, 0x00#8, 0x02#8, 0x02#8, 0x02#8] 0x7F#8 ready) = .next t :=
  next_of_after (by decide +kernel)

theorem witness_CommandsLeaveReceiverAlone : (∃ t, exec (Command.readAddr 0#32).toInstr ready = .next t) ∧
    ∃ t, exec Command.startApp.toInstr ready = .next t :=
  ⟨next_of_after (by decide +kernel), next_of_after (by decide +kernel)⟩

theorem witness_ReplyingCommandsFrame : (∃ t, exec .readPlatform ready = .next t) ∧
    (∃ t, exec (.readAddr 0x0800#32) readyF0 = .next t) ∧ ∃ t, exec (.readMax 0xFFFFFFFE#32) readyF0 = .next t :=
  ⟨next_of_after (by decide +kernel), next_of_after (by decide +kernel), next_of_after (by decide +kernel)⟩

theorem witness_FlashWritingCommandsFrame : readyF0.cfg.Legal ∧ readyF0.flash.wf = true ∧
    (Instr.writeRow 0xFFFFFFFE#32 [1#32, 2#32, 3#32, 4#32]).wellFormed readyF0.cfg = true ∧
    (∃ t, exec (.writeRow 0xFFFFFFFE#32 [1#32, 2#32, 3#32, 4#32]) readyF0 = .next t) ∧
    (∃ t, exec (.erasePage 0#32) readyF0 = .next t) ∧ ∃ t, exec (.writeMaxProgSize 0#32 (List.replicate 8 9#32))
      readyF0 = .next t :=
  ⟨configured_legal, by decide +kernel, by decide, next_of_after (by decide +kernel), next_of_after (by decide +kernel),
    next_of_after (by decide +kernel)⟩

/-- An ordinary store, the store that overflows, and a class that stores nothing. -/
theorem witness_WireClassesFrame :
    (∃ t, exec (.data 0x11#8) (inFrame (List.replicate 46 0x11#8) 0x11#8 ready) = .next t) ∧
    (∃ t, exec (.escapedByte 0xD7#8) (inFrame (List.replicate 47 0x11#8) 0xD7#8 ready) = .next t) ∧
    (∃ t, exec .escapeMarker ready = .next t) ∧ ready.buf.wf = true :=
  ⟨next_of_after (by decide +kernel), next_of_after (by decide +kernel), next_of_after (by decide +kernel), rfl⟩

theorem witness_StepRunsTheDecodedInstruction : ready.cfg.Legal ∧ ready.mode = .bootWait ∧ ready.phase = .drain ∧
    ({ ready with rx := [some 0xF7#8] } : State).rx = some 0xF7#8 :: [] ∧
    decode ready.cfg (.wire ready.pstate) [0xF7#8] = .ok .startMarker := ⟨configured_legal, rfl, rfl, rfl, rfl⟩

/-- A configuration whose bulk write does not divide into rows breaks D28 (2). -/
theorem witness_IllegalConfigurationRefused : ¬ ({ Config.configured with rowSize := 3 } : Cfg).Legal ∧
    Config.configured.Legal := ⟨by decide +kernel, configured_legal⟩

end Sys2Proof.Tests
end

/-! ### No rule is refused: the only refusal of a step is the check of the configuration (R8, D28) -/

namespace Sys2Proof.Machine

theorem append_ne_refused (v : Byte) (s : State) (r : Refusal) : append v s ≠ .refused r := by
  rcases append_cases v s with ⟨-, e⟩ | ⟨-, e⟩ | ⟨-, e⟩ <;> simp [e]

theorem execEndMarker_ne_refused (s : State) (r : Refusal) : execEndMarker s ≠ .refused r := by
  rcases execEndMarker_cases s with ⟨-, e⟩ | ⟨-, -, tr, e⟩ | ⟨-, u, es, -, e⟩ <;> simp [e]

theorem ReceiveRule.ne_refused {b : Byte} {s : State} {o : Result} (h : ReceiveRule b s o) (r : Refusal) :
    o ≠ .refused r := by
  cases h with
  | atEnd | start | noise | escape => simp
  | ending => exact execEndMarker_ne_refused _ r
  | data | escaped => exact append_ne_refused _ _ r

theorem recvByte_ne_refused (b : Byte) (s : State) (r : Refusal) : recvByte b s ≠ .refused r :=
  (recvByte_rule b s).ne_refused r

theorem drainPart_ne_refused (s : State) (r : Refusal) : drainPart s ≠ .refused r := by
  unfold drainPart
  split
  · exact recvByte_ne_refused _ _ r
  · simp

theorem pollPart_ne_refused (s : State) (r : Refusal) : pollPart s ≠ .refused r := by
  unfold pollPart
  split <;> simp

theorem loopPart_ne_refused (s : State) (r : Refusal) : loopPart s ≠ .refused r := by
  unfold loopPart
  split
  · simp [servicePart]
  · exact drainPart_ne_refused s r
  · exact pollPart_ne_refused s r

theorem startupDecision_ne_refused (s : State) (r : Refusal) : startupDecision s ≠ .refused r := by
  unfold startupDecision
  split <;> simp

theorem stepMode_ne_refused (s : State) (r : Refusal) : stepMode s ≠ .refused r := by
  unfold stepMode
  split
  · exact startupDecision_ne_refused s r
  · exact loopPart_ne_refused s r
  · simp

/-- Settles O54: the configuration is checked first, and no rule behind the check is refused. -/
theorem illegalConfigurationRefused : Obligations.IllegalConfigurationRefused := by
  intro s
  refine ⟨step_of_illegal, fun hl r => ?_⟩
  rw [step_of_legal hl]
  exact stepMode_ne_refused s r

end Sys2Proof.Machine

/-! ### What a byte taken from RX does, by the state it leaves -/

namespace Sys2Proof.Machine

theorem State.withPState_self {p : PState} {s : State} (h : s.pstate = p) : s.withPState p = s := by
  subst h; rfl

/-- The raw byte `b`, taken in `s`, is stored as the logical byte `v` (R184, R185). -/
def StoresByte (b : Byte) (s : State) (v : Byte) : Prop :=
  (s.pstate = .readVerbatim ∧ b ≠ escapeMarkerByte ∧ b ≠ endMarkerByte ∧ v = b) ∨
    (s.pstate = .readEscaped ∧ v = b ^^^ escapeXor)

/-- What a receive step that answers next has done: `ReceiveRule` with the append and the end of frame resolved. -/
inductive Received (b : Byte) (s t : State) : Prop where
  | start (hp : s.pstate = .waitForStart) (hb : b = startMarkerByte)
      (ht : t = (s.emit (.rx b)).withPState .readVerbatim)
  | noise (hp : s.pstate = .waitForStart) (hb : b ≠ startMarkerByte)
      (ht : t = (s.emit (.rx b)).emit (.discard (.framingNoise b)))
  | escape (hp : s.pstate = .readVerbatim) (hb : b = escapeMarkerByte)
      (ht : t = (s.emit (.rx b)).withPState .readEscaped)
  | stored (v : Byte) (hv : StoresByte b s v) (hi : s.i + 1 < s.cfg.cap)
      (ht : t = (((s.emit (.rx b)).withPState .readVerbatim).withBuf (s.buf.write s.i v)).withI (s.i + 1))
  | overflowed (v : Byte) (hv : StoresByte b s v) (hi : s.i + 1 = s.cfg.cap)
      (ht : t = (wipe (s.emit (.rx b))).emit (.discard .overflow))
  | ended (u : State) (es : List Event) (hp : s.pstate = .readVerbatim) (hb : b = endMarkerByte)
      (hi : s.i ≤ s.cfg.cap) (hv : FrameVerdict (s.emit (.rx b)) u es)
      (ht : t = if u.mode = .bootWait then wipe u else u)

theorem received_of_append {b v : Byte} {s t : State} (hv : StoresByte b s v)
    (h : append v ((s.emit (.rx b)).withPState .readVerbatim) = .next t) : Received b s t := by
  rcases append_cases v ((s.emit (.rx b)).withPState .readVerbatim) with ⟨-, e⟩ | ⟨hi, e⟩ | ⟨hi, e⟩ <;> rw [e] at h <;>
    cases h
  · exact .stored v hv hi rfl
  · exact .overflowed v hv hi rfl

theorem received_of_execEndMarker {s t : State} (hp : s.pstate = .readVerbatim)
    (h : execEndMarker (s.emit (.rx endMarkerByte)) = .next t) : Received endMarkerByte s t := by
  rcases execEndMarker_cases (s.emit (.rx endMarkerByte)) with ⟨-, e⟩ | ⟨-, -, tr, e⟩ | ⟨hi, u, es, hv, e⟩ <;>
    rw [e] at h <;> cases h
  exact .ended u es hp rfl hi hv rfl

theorem received_of_recvByte {b : Byte} {s t : State} (h : recvByte b s = .next t) : Received b s t := by
  have hr := recvByte_rule b s
  generalize recvByte b s = o at h hr
  cases hr with
  | atEnd => cases h
  | start hp hb => cases h; exact .start hp hb rfl
  | noise hp hb => cases h; exact .noise hp hb rfl
  | escape hp hb => cases h; exact .escape hp hb rfl
  | ending hp hb => subst hb; exact received_of_execEndMarker hp h
  | data hp hb hb' =>
    refine received_of_append (.inl ⟨hp, hb, hb', rfl⟩) ?_
    rwa [State.withPState_self (s := s.emit (.rx b)) hp]
  | escaped hp => exact received_of_append (.inr ⟨hp, rfl⟩) h

/-! ### What the end of a frame leaves, whatever its verdict -/

theorem FrameVerdict.frame {s u : State} {es : List Event} (h : FrameVerdict s u es) :
    u = { s with
      pstate := .endOfMessage, trace := s.trace ++ es, flash := u.flash, sum1 := u.sum1, sum2 := u.sum2
      txAccepts := u.txAccepts, mode := u.mode } := by
  cases h with
  | unverified r _ _ hu => subst hu; rfl
  | dropped r _ _ _ _ hu => subst hu; rfl
  | performed k es' hes _ _ _ _ he =>
    rw [he.frame]
    simp [hes]

theorem FrameVerdict.mode {s u : State} {es : List Event} (h : FrameVerdict s u es) :
    u.mode = s.mode ∨ u.mode = .runApplication := by
  cases h with
  | unverified _ _ _ hu => subst hu; exact .inl rfl
  | dropped _ _ _ _ _ hu => subst hu; exact .inl rfl
  | performed k _ _ _ _ _ _ he =>
    have hm := congrArg State.mode he.frame
    by_cases hk : k = .startApp
    · exact .inr (by simpa [hk] using hm)
    · exact .inl (by simpa [hk] using hm)

theorem FrameVerdict.flash_wf {s u : State} {es : List Event} (h : FrameVerdict s u es)
    (hw : s.flash.wf = true) : u.flash.wf = true := by
  cases h with
  | unverified _ _ _ hu => subst hu; exact hw
  | dropped _ _ _ _ _ hu => subst hu; exact hw
  | performed _ _ _ _ _ _ _ he => exact he.flashWf hw

/-- A frame that ends leaves BOOT_WAIT only for the application (R191). -/
theorem FrameVerdict.runApplication_of_ne_bootWait {s u : State} {es : List Event} (h : FrameVerdict s u es)
    (hm : s.mode = .bootWait) (hu : u.mode ≠ .bootWait) : u.mode = .runApplication :=
  h.mode.resolve_left fun e => hu (e.trans hm)

/-! ### The receiver's part of the invariant (R46 (a) to (d)) -/

theorem cap_pos (c : Cfg) : 0 < c.cap := Nat.succ_pos _

/-- The receiver's invariant speaks of the receiver and the capacity only. -/
theorem ReceiverOk.congr {s t : State} (h : ReceiverOk s) (hc : t.cfg = s.cfg) (hp : t.pstate = s.pstate)
    (hi : t.i = s.i) (hb : t.buf = s.buf) : ReceiverOk t where
  notEnd := hp ▸ h.notEnd
  waitingEmpty := by rw [hp, hi]; exact h.waitingEmpty
  cursor := by rw [hi, hc]; exact h.cursor
  tailZero := by rw [hi, hb]; exact h.tailZero

/-- An empty receiver meets the invariant: after reset (R45) and after a wipe (R187). -/
theorem ReceiverOk.of_empty {s : State} (hp : s.pstate = .waitForStart) (hi : s.i = 0) (hb : s.buf = []) :
    ReceiverOk s where
  notEnd := by simp [hp]
  waitingEmpty := fun _ => hi
  cursor := hi ▸ cap_pos s.cfg
  tailZero := by simp [hb]

/-- Inside a frame the parser may move between its two states. -/
theorem ReceiverOk.withPState {s : State} {p : PState} (h : ReceiverOk s) (hp : p = .readVerbatim ∨ p = .readEscaped) :
    ReceiverOk (s.withPState p) where
  notEnd := by rcases hp with rfl | rfl <;> simp
  waitingEmpty := by rcases hp with rfl | rfl <;> simp
  cursor := h.cursor
  tailZero := h.tailZero

/-- A store below the guard keeps the bytes above the cursor zero (R186). -/
theorem ReceiverOk.store {s : State} (v : Byte) (h : ReceiverOk s) (hw : s.buf.wf = true)
    (hp : s.pstate ≠ .waitForStart) (hi : s.i + 1 < s.cfg.cap) :
    ReceiverOk ((s.withBuf (s.buf.write s.i v)).withI (s.i + 1)) where
  notEnd := h.notEnd
  waitingEmpty := fun e => absurd e hp
  cursor := hi
  tailZero := fun k hk => by
    simp only [State.withI_i] at hk
    have hne : k ≠ s.i := by omega
    rw [State.withI_buf, State.withBuf_buf, Memory.read_write hw, if_neg hne]
    exact h.tailZero k (by omega)

/-! ### The invariant: of a block that waits in BOOT_WAIT, and of one that has left -/

theorem Inv.of_bootWait {t : State} (hm : t.mode = .bootWait) (hb : t.buf.wf = true) (hf : t.flash.wf = true)
    (hr : ReceiverOk t) : Inv t :=
  ⟨hb, hf, fun _ => hr, by simp [hm]⟩

theorem Inv.of_runApplication {t : State} (hm : t.mode = .runApplication) (hb : t.buf.wf = true)
    (hf : t.flash.wf = true) : Inv t :=
  ⟨hb, hf, fun h => absurd hm h, by simp [hm]⟩

/-- While the block runs, a change outside the receiver and the memories keeps the invariant. -/
theorem Inv.congr {s t : State} (h : Inv s) (hs : s.mode ≠ .runApplication) (hm : t.mode = .bootWait)
    (hc : t.cfg = s.cfg) (hp : t.pstate = s.pstate) (hi : t.i = s.i) (hb : t.buf = s.buf)
    (hf : t.flash = s.flash) : Inv t :=
  .of_bootWait hm (hb ▸ h.bufCanonical) (hf ▸ h.flashCanonical) ((h.receiver hs).congr hc hp hi hb)

/-- The end of a frame keeps the invariant: it wipes the receiver, or the block has left. -/
theorem FrameVerdict.inv {s u : State} {es : List Event} (h : FrameVerdict s u es) (hm : s.mode = .bootWait)
    (hb : s.buf.wf = true) (hf : s.flash.wf = true) : Inv (if u.mode = .bootWait then wipe u else u) := by
  split
  case isTrue hu => exact .of_bootWait hu rfl (h.flash_wf hf) (.of_empty rfl rfl rfl)
  case isFalse hu =>
    have hbuf : u.buf = s.buf := (congrArg State.buf h.frame :)
    exact .of_runApplication (h.runApplication_of_ne_bootWait hm hu) (hbuf ▸ hb) (h.flash_wf hf)

/-- A byte taken keeps the invariant. -/
theorem Received.inv {b : Byte} {s t : State} (h : Received b s t) (hm : s.mode = .bootWait) (hs : Inv s) : Inv t := by
  have hr : ReceiverOk (s.emit (.rx b)) := (hs.receiver (by simp [hm])).congr rfl rfl rfl rfl
  cases h with
  | start _ _ ht =>
    subst ht
    exact .of_bootWait hm hs.bufCanonical hs.flashCanonical (hr.withPState (.inl rfl))
  | noise _ _ ht =>
    subst ht
    exact hs.congr (by simp [hm]) hm rfl rfl rfl rfl rfl
  | escape _ _ ht =>
    subst ht
    exact .of_bootWait hm hs.bufCanonical hs.flashCanonical (hr.withPState (.inr rfl))
  | stored v _ hi ht =>
    subst ht
    exact .of_bootWait hm (Memory.wf_write hs.bufCanonical _ _) hs.flashCanonical
      ((hr.withPState (.inl rfl)).store v hs.bufCanonical (by simp) hi)
  | overflowed _ _ _ ht =>
    subst ht
    exact .of_bootWait hm rfl hs.flashCanonical (.of_empty rfl rfl rfl)
  | ended u es _ _ _ hv ht =>
    subst ht
    exact hv.inv hm hs.bufCanonical hs.flashCanonical

/-- Settles O46: every step leaves the block in BOOT_WAIT with a receiver kept, moved by one byte or wiped, or with
control transferred, after which only the memories' form is asked for. -/
theorem stepKeepsInvariant : Obligations.StepKeepsInvariant := by
  intro s t hs h
  obtain ⟨-, hcases⟩ := step_next_cases h
  rcases hcases with ⟨hm, -, rfl⟩ | ⟨-, -, rfl⟩ | ⟨hm, -, rfl⟩ | ⟨hm, -, -, rfl⟩ | ⟨l, hm, -, -, rfl⟩ |
    ⟨b, l, hm, -, -, hrecv⟩ | ⟨hm, -, -, rfl⟩ | ⟨l, hm, -, -, rfl⟩ | ⟨l, -, -, -, rfl⟩
  · exact hs.congr (by simp [hm]) rfl rfl rfl rfl rfl rfl
  · exact .of_runApplication rfl hs.bufCanonical hs.flashCanonical
  · exact hs.congr (by simp [hm]) hm rfl rfl rfl rfl rfl
  · exact hs.congr (by simp [hm]) hm rfl rfl rfl rfl rfl
  · exact hs.congr (by simp [hm]) hm rfl rfl rfl rfl rfl
  · have hs' : Inv (s.withRx l) := hs.congr (by simp [hm]) hm rfl rfl rfl rfl rfl
    exact (received_of_recvByte hrecv).inv hm hs'
  · exact hs.congr (by simp [hm]) hm rfl rfl rfl rfl rfl
  · exact hs.congr (by simp [hm]) hm rfl rfl rfl rfl rfl
  · exact .of_runApplication rfl hs.bufCanonical hs.flashCanonical

/-! ### The configuration -/

theorem Received.cfg {b : Byte} {s t : State} (h : Received b s t) : t.cfg = s.cfg := by
  cases h with
  | start _ _ ht | noise _ _ ht | escape _ _ ht | stored _ _ _ ht | overflowed _ _ _ ht => subst ht; rfl
  | ended u es _ _ _ hv ht =>
    have hu : u.cfg = s.cfg := (congrArg State.cfg hv.frame :)
    subst ht
    split <;> exact hu

/-- Settles O47: no rule of the session and no byte taken writes the configuration. -/
theorem configurationIsReadOnly : Obligations.ConfigurationIsReadOnly := by
  intro s t h
  obtain ⟨-, hcases⟩ := step_next_cases h
  rcases hcases with ⟨-, -, rfl⟩ | ⟨-, -, rfl⟩ | ⟨-, -, rfl⟩ | ⟨-, -, -, rfl⟩ | ⟨l, -, -, -, rfl⟩ |
    ⟨b, l, -, -, -, hrecv⟩ | ⟨-, -, -, rfl⟩ | ⟨l, -, -, -, rfl⟩ | ⟨l, -, -, -, rfl⟩
  case inr.inr.inr.inr.inr.inl => exact (received_of_recvByte hrecv).cfg
  all_goals rfl

end Sys2Proof.Machine

/-! ### No command depends on the receiver (R36) -/

namespace Sys2Proof.Machine

/-- The same block with another receiver: `pstate`, `i` and `Buf` replaced. -/
def State.withReceiver (p : PState) (n : Nat) (b : Memory) (s : State) : State :=
  { s with pstate := p, i := n, buf := b }

/-- Performed with another receiver an operation does the same, and differs in the receiver only. -/
def IgnoresReceiver (f : State → Result) : Prop :=
  ∀ (p : PState) (n : Nat) (b : Memory) (s : State),
    f (s.withReceiver p n b) = andThen (f s) fun t => .next (t.withReceiver p n b)

theorem accumulateAll_withReceiver (p : PState) (n : Nat) (b : Memory) (l : List Byte) (s : State) :
    accumulateAll l (s.withReceiver p n b) = (accumulateAll l s).withReceiver p n b := by
  induction l generalizing s with
  | nil => rfl
  | cons x l ih => exact ih (accumulate x s)

theorem flashReadWords_withReceiver (p : PState) (n : Nat) (b : Memory) (as : List Addr) (s : State) :
    flashReadWords as (s.withReceiver p n b) =
      ((flashReadWords as s).1, (flashReadWords as s).2.withReceiver p n b) := by
  induction as generalizing s with
  | nil => rfl
  | cons a as ih =>
    have hread : flashReadWord a (s.withReceiver p n b) =
      ((flashReadWord a s).1, (flashReadWord a s).2.withReceiver p n b) := rfl
    simp only [flashReadWords, hread, ih]

theorem txAll_ignoresReceiver (l : List Byte) : IgnoresReceiver (txAll l) := by
  intro p n b s
  rcases txAll_cases l s with ⟨h, e⟩ | ⟨m, hm, hlt, e⟩
  · rw [e, txAll_of_accepts (s := s.withReceiver p n b) h]; rfl
  · rw [e, txAll_of_blocked (s := s.withReceiver p n b) hm hlt]; rfl

theorem sendFrame_ignoresReceiver (cmd : Byte) (data : List Byte) : IgnoresReceiver (sendFrame cmd data) := by
  intro p n b s
  rw [sendFrame_eq, sendFrame_eq, ← txAll_ignoresReceiver, ← accumulateAll_withReceiver]
  rfl

theorem execErasePage_ignoresReceiver (a : Addr) : IgnoresReceiver (execErasePage a) := by
  intro p n b s
  by_cases hb : inBoot s.cfg a = true
  · simp only [execErasePage, State.withReceiver, hb, if_true]; rfl
  · by_cases h0 : a = 0#32
    · subst h0
      simp only [execErasePage, State.withReceiver, hb, if_true]; rfl
    · simp only [execErasePage, State.withReceiver, hb, h0, if_false]; rfl

theorem execReadMax_ignoresReceiver (a : Addr) : IgnoresReceiver (execReadMax a) := by
  intro p n b s
  have hcfg : (s.withReceiver p n b).cfg = s.cfg := rfl
  simp only [execReadMax, hcfg, flashReadWords_withReceiver]
  exact sendFrame_ignoresReceiver _ _ p n b _

theorem execWriteRow_ignoresReceiver (a : Addr) (ws : List Word) : IgnoresReceiver (execWriteRow a ws) := by
  intro p n b s
  by_cases h : (inBoot s.cfg a || belowIvt s.cfg a) = true
  · simp only [execWriteRow, State.withReceiver, h, if_true]; rfl
  · simp only [execWriteRow, State.withReceiver, h]; rfl

theorem execWriteMaxProgSize_ignoresReceiver (a : Addr) (ws : List Word) :
    IgnoresReceiver (execWriteMaxProgSize a ws) := by
  intro p n b s
  by_cases h : inBoot s.cfg a = true
  · simp only [execWriteMaxProgSize, State.withReceiver, h, if_true]; rfl
  · simp only [execWriteMaxProgSize, State.withReceiver, h, flashWriteRows_spec]; rfl

/-- No command reads the receiver (R36). -/
theorem exec_command_ignoresReceiver (k : Command) : IgnoresReceiver (exec k.toInstr) := by
  intro p n b s
  cases k with
  | readPlatform => exact sendFrame_ignoresReceiver _ _ p n b s
  | readVersion => exact sendFrame_ignoresReceiver _ _ p n b s
  | readRowLen => exact sendFrame_ignoresReceiver _ _ p n b s
  | readPageLen => exact sendFrame_ignoresReceiver _ _ p n b s
  | readProgLen => exact sendFrame_ignoresReceiver _ _ p n b s
  | readMaxProgSize => exact sendFrame_ignoresReceiver _ _ p n b s
  | readAppStartAddr => exact sendFrame_ignoresReceiver _ _ p n b s
  | readBootStartAddr => exact sendFrame_ignoresReceiver _ _ p n b s
  | erasePage a => exact execErasePage_ignoresReceiver a p n b s
  | readAddr a => exact sendFrame_ignoresReceiver _ _ p n b (flashReadWord a s).2
  | readMax a => exact execReadMax_ignoresReceiver a p n b s
  | writeRow a ws => exact execWriteRow_ignoresReceiver a ws p n b s
  | writeMaxProgSize a ws => exact execWriteMaxProgSize_ignoresReceiver a ws p n b s
  | startApp => rfl
  | unknown code => rfl

/-- A command that answers next has an effect as `CommandEffect` says. -/
theorem commandEffect_of_exec {k : Command} {s t : State} (h : exec k.toInstr s = .next t) :
    ∃ es, CommandEffect k s t es := by
  rcases exec_command_cases k s with ⟨t', es, e, he⟩ | ⟨-, tr, e⟩ <;> rw [e] at h <;> cases h
  exact ⟨es, he⟩

/-- Settles O49: what a command writes is `CommandEffect.frame`, and none reads the receiver. -/
theorem commandsLeaveReceiverAlone : Obligations.CommandsLeaveReceiverAlone := by
  refine ⟨fun k s t h => ?_, fun k s p n b => exec_command_ignoresReceiver k p n b s⟩
  obtain ⟨es, he⟩ := commandEffect_of_exec h
  have hf := he.frame
  have hbuf : t.buf = s.buf := (congrArg State.buf hf :)
  have hmode : t.mode = if k = .startApp then .runApplication else s.mode := (congrArg State.mode hf :)
  exact ⟨(congrArg State.cfg hf :), (congrArg State.pstate hf :), (congrArg State.i hf :), fun a => by rw [hbuf],
    (congrArg State.phase hf :), (congrArg State.rx hf :), (congrArg State.enter hf :), (congrArg State.abort hf :),
    fun hk => hmode.trans (if_neg hk)⟩

end Sys2Proof.Machine

/-! ### Replaying the events of a step on the environment (R42, R79; log 20) -/

namespace Sys2Proof.Machine

/-- What an event does behind its port depends on what a reset keeps, and on nothing else. -/
theorem Event.environment_resetBlock (e : Event) (s : State) :
    (e.environment s).resetBlock = e.environment s.resetBlock := by
  cases e <;> rfl

theorem replay_resetBlock (es : List Event) (s : State) : (replay es s).resetBlock = replay es s.resetBlock := by
  induction es generalizing s with
  | nil => rfl
  | cons e es ih => rw [replay, ih, Event.environment_resetBlock]; rfl

/-- `t` is `s` after events that account for everything between them that a reset keeps. -/
def Accounted (s t : State) : Prop :=
  ∃ es, t.trace = s.trace ++ es ∧ (replay es s).resetBlock = t.resetBlock

/-- A change of the block alone, with no event. -/
theorem Accounted.silent {s t : State} (ht : t.trace = s.trace) (hr : s.resetBlock = t.resetBlock) : Accounted s t :=
  ⟨[], by simp [ht], hr⟩

/-- One event and its effect. -/
theorem Accounted.event {s t : State} (e : Event) (ht : t.trace = s.trace ++ [e])
    (hr : (e.environment s).resetBlock = t.resetBlock) : Accounted s t :=
  ⟨[e], ht, hr⟩

theorem Accounted.trans {s t u : State} (hst : Accounted s t) (htu : Accounted t u) : Accounted s u := by
  obtain ⟨a, ha, ra⟩ := hst
  obtain ⟨b, hb, rb⟩ := htu
  refine ⟨a ++ b, by rw [hb, ha, List.append_assoc], ?_⟩
  rw [replay_append, replay_resetBlock, ra, ← replay_resetBlock, rb]

/-- The events the trace grew by are the ones that account for the change. -/
theorem Accounted.replay_of_trace {s t : State} {es : List Event} (h : Accounted s t) (ht : t.trace = s.trace ++ es) :
    (replay es s).resetBlock = t.resetBlock := by
  obtain ⟨es', ht', hr⟩ := h
  obtain rfl : es' = es := List.append_cancel_left (ht'.symm.trans ht)
  exact hr

/-! #### The requests of the commands -/

theorem accounted_sendFrame {cmd : Byte} {data : List Byte} {s t : State} (h : sendFrame cmd data s = .next t) :
    Accounted s t := by
  rcases sendFrame_cases cmd data s with ⟨-, e⟩ | ⟨n, -, -, e⟩ <;> rw [e] at h <;> cases h
  exact ⟨(rawFrame cmd data).map .tx, rfl, by rw [replay_tx]; rfl⟩

theorem accounted_flashReadWord (a : Addr) (s : State) : Accounted s (flashReadWord a s).2 :=
  .event (.readWord a (s.flash.read a).1) rfl rfl

theorem accounted_flashReadWords (as : List Addr) (s : State) : Accounted s (flashReadWords as s).2 := by
  induction as generalizing s with
  | nil => exact .silent rfl rfl
  | cons a as ih => exact (accounted_flashReadWord a s).trans (ih _)

theorem accounted_flashErasePage (a : Addr) (s : State) : Accounted s (flashErasePage a s) :=
  .event (.erasePage a) rfl rfl

theorem accounted_flashWriteDouble (a : Addr) (w0 w1 : Word) (s : State) :
    Accounted s (flashWriteDouble a w0 w1 s) :=
  .event (.writeDoubleWord a w0 w1) rfl rfl

theorem accounted_flashWriteRow (a : Addr) (ws : List Word) (s : State) : Accounted s (flashWriteRow a ws s) :=
  .event (.writeRow a ws) rfl rfl

theorem accounted_flashWriteRows (rows : List (Addr × List Word)) (s : State) :
    Accounted s (flashWriteRows rows s) := by
  induction rows generalizing s with
  | nil => exact .silent rfl rfl
  | cons r rows ih => exact (accounted_flashWriteRow r.1 r.2 s).trans (ih _)

theorem accounted_raiseDiscard (r : DiscardReason) (s : State) : Accounted s (raiseDiscard r s) :=
  .event (.discard r) rfl rfl

theorem accounted_live (s : State) : Accounted s (live s) := .event .live rfl rfl

theorem accounted_jumpApp (s : State) : Accounted s (jumpApp s) :=
  .event (.jumpToApplication s.cfg.appStartAddr) rfl rfl

theorem accounted_wipe (s : State) : Accounted s (wipe s) := .silent rfl rfl

theorem accounted_execErasePage {a : Addr} {s t : State} (h : execErasePage a s = .next t) : Accounted s t := by
  unfold execErasePage at h
  split at h
  · cases h; exact accounted_raiseDiscard _ s
  · split at h <;> cases h
    · exact (accounted_flashErasePage a s).trans (accounted_flashWriteDouble _ _ _ _)
    · exact accounted_flashErasePage a s

theorem accounted_execWriteRow {a : Addr} {ws : List Word} {s t : State} (h : execWriteRow a ws s = .next t) :
    Accounted s t := by
  unfold execWriteRow at h
  split at h <;> cases h
  · exact accounted_raiseDiscard _ s
  · exact accounted_flashWriteRow a ws s

theorem accounted_execWriteMaxProgSize {a : Addr} {ws : List Word} {s t : State}
    (h : execWriteMaxProgSize a ws s = .next t) : Accounted s t := by
  unfold execWriteMaxProgSize at h
  split at h <;> cases h
  · exact accounted_raiseDiscard _ s
  · exact accounted_flashWriteRows _ s

theorem accounted_exec_command {k : Command} {s t : State} (h : exec k.toInstr s = .next t) : Accounted s t := by
  cases k with
  | readPlatform | readVersion | readRowLen | readPageLen | readProgLen | readMaxProgSize | readAppStartAddr
    | readBootStartAddr => exact accounted_sendFrame h
  | erasePage a => exact accounted_execErasePage h
  | readAddr a => exact (accounted_flashReadWord a s).trans (accounted_sendFrame h)
  | readMax a => exact (accounted_flashReadWords _ s).trans (accounted_sendFrame h)
  | writeRow a ws => exact accounted_execWriteRow h
  | writeMaxProgSize a ws => exact accounted_execWriteMaxProgSize h
  | startApp => cases h; exact accounted_jumpApp s
  | unknown code => cases h; exact accounted_raiseDiscard _ s

/-! #### The receiver and the step -/

theorem FrameVerdict.accounted {s u : State} {es : List Event} (h : FrameVerdict s u es) : Accounted s u := by
  have hend : Accounted s (s.withPState .endOfMessage) := .silent rfl rfl
  cases h with
  | unverified r _ hes hu =>
    subst hes hu
    exact hend.trans (accounted_raiseDiscard r _)
  | dropped r _ hes _ _ hu =>
    subst hes hu
    exact ⟨[.live, .discard r], rfl, rfl⟩
  | performed k es' _ _ _ _ hx _ => exact (hend.trans (accounted_live _)).trans (accounted_exec_command hx)

/-- What a receive step does after the event of the byte taken is accounted for. -/
theorem Received.accounted {b : Byte} {s t : State} (h : Received b s t) : Accounted (s.emit (.rx b)) t := by
  cases h with
  | start _ _ ht => subst ht; exact .silent rfl rfl
  | noise _ _ ht => subst ht; exact accounted_raiseDiscard _ _
  | escape _ _ ht => subst ht; exact .silent rfl rfl
  | stored v _ _ ht => subst ht; exact .silent rfl rfl
  | overflowed _ _ _ ht => subst ht; exact (accounted_wipe _).trans (accounted_raiseDiscard _ _)
  | ended u es _ _ _ hv ht =>
    subst ht
    split
    · exact hv.accounted.trans (accounted_wipe u)
    · exact hv.accounted

/-- Taking a byte from RX is accounted for by its event. -/
theorem accounted_take {b : Byte} {l : List (Option Byte)} {s : State} (h : s.rx = some b :: l) :
    Accounted s ((s.withRx l).emit (.rx b)) :=
  .event (.rx b) rfl (by simp [Event.environment, h, State.resetBlock])

theorem accounted_abort {v : Bool} {l : List Bool} {s : State} (h : s.abort.tail = l) :
    Accounted s ((s.withAbort l).emit (.abort v)) :=
  .event (.abort v) rfl (by simp [Event.environment, h, State.resetBlock])

/-- A step's events account for what it does behind the ports; the one exception is the poll that took a "no byte"
answer, which is no event. -/
theorem step_accounted {s t : State} (h : step s = .next t) :
    Accounted s t ∨ ∃ l, t = (s.withRx l).withPhase .poll := by
  obtain ⟨-, hcases⟩ := step_next_cases h
  rcases hcases with ⟨-, -, rfl⟩ | ⟨-, -, rfl⟩ | ⟨-, -, rfl⟩ | ⟨-, -, -, rfl⟩ | ⟨l, -, -, -, rfl⟩ |
    ⟨b, l, -, -, hrx, hrecv⟩ | ⟨-, -, ha, rfl⟩ | ⟨l, -, -, ha, rfl⟩ | ⟨l, -, -, ha, rfl⟩
  · exact .inl (.event (.enter true) rfl rfl)
  · exact .inl ((Accounted.event (t := s.emit (.enter false)) (.enter false) rfl rfl).trans (accounted_jumpApp _))
  · exact .inl (.event .wdt rfl rfl)
  · exact .inl (.silent rfl rfl)
  · exact .inr ⟨l, rfl⟩
  · exact .inl ((accounted_take hrx).trans (received_of_recvByte hrecv).accounted)
  · exact .inl (.event (.abort false) rfl (by simp [Event.environment, ha, State.resetBlock]))
  · exact .inl ((accounted_abort (by simp [ha])).trans (.silent rfl rfl))
  · exact .inl ((accounted_abort (by simp [ha])).trans (accounted_jumpApp _))

/-- Settles O58: a step is accounted for by its events, or has none and takes a "no byte" answer only. -/
theorem replayAgreesWithStep : Obligations.ReplayAgreesWithStep := by
  intro s t es h ht
  rcases step_accounted h with hacc | ⟨l, rfl⟩
  · have hr := hacc.replay_of_trace ht
    exact ⟨(congrArg State.flash hr :), (congrArg State.txAccepts hr :), (congrArg State.enter hr :),
      fun _ => ⟨(congrArg State.rx hr :), (congrArg State.abort hr :)⟩⟩
  · obtain rfl : es = [] := by simpa using ht
    exact ⟨rfl, rfl, rfl, fun hne => absurd rfl hne⟩

end Sys2Proof.Machine

/-! ### Reset -/

namespace Sys2Proof.Machine

/-- Settles O43: the trace is empty at reset, and the block has not left. -/
theorem resetTraceIsClean : Obligations.ResetTraceIsClean := by
  intro c
  refine ⟨⟨fun _ => rfl, fun hrun => ?_⟩, fun a ha => ?_⟩
  · cases hrun
  · cases ha

/-- Settles O44: both resets write the values of R45, and a reset of the block keeps the environment. -/
theorem resetState : Obligations.ResetState :=
  ⟨fun _ => ⟨_, rfl, rfl, rfl, rfl, rfl, fun _ => rfl, rfl, rfl, rfl⟩,
    fun _ => ⟨_, rfl, rfl, rfl, rfl, rfl, fun _ => rfl, rfl, rfl, rfl, rfl, rfl⟩⟩

/-- Settles O45: at reset both memories are empty and so is the receiver. -/
theorem invariantAtReset : Obligations.InvariantAtReset := by
  intro c
  exact ⟨rfl, rfl, fun _ => .of_empty rfl rfl rfl, fun _ => rfl⟩

end Sys2Proof.Machine

/-! ### A byte from RX is taken before everything else a step does (R85) -/

namespace Sys2Proof.Machine

/-- The trace grew from `s` to `t` by events none of which takes a byte from RX. -/
def GrowsWithoutRx (s t : State) : Prop :=
  ∃ es, t.trace = s.trace ++ es ∧ ∀ e ∈ es, e.isRx = false

theorem GrowsWithoutRx.of_trace_eq {s t : State} (h : t.trace = s.trace) : GrowsWithoutRx s t :=
  ⟨[], by simp [h], by simp⟩

theorem GrowsWithoutRx.discard {s t : State} (r : DiscardReason) (h : t.trace = s.trace ++ [.discard r]) :
    GrowsWithoutRx s t :=
  ⟨[.discard r], h, by simp [Event.isRx]⟩

/-- Neither the verdict on a frame nor the command it dispatches takes a byte. -/
theorem FrameVerdict.noRx {s u : State} {es : List Event} (h : FrameVerdict s u es) : ∀ e ∈ es, e.isRx = false := by
  cases h with
  | unverified r _ hes _ => simp [hes, Event.isRx]
  | dropped r _ hes _ _ _ => simp [hes, Event.isRx]
  | performed k es' hes _ _ _ _ he =>
    rw [hes, List.forall_mem_cons]
    exact ⟨rfl, fun e hmem => (he.noRx e hmem).1⟩

theorem FrameVerdict.growsWithoutRx {s u : State} {es : List Event} (h : FrameVerdict s u es) : GrowsWithoutRx s u :=
  ⟨es, (congrArg State.trace h.frame :), h.noRx⟩

/-- A receive step takes no byte but its own. -/
theorem Received.growsWithoutRx {b : Byte} {s t : State} (h : Received b s t) :
    GrowsWithoutRx (s.emit (.rx b)) t := by
  cases h with
  | start _ _ ht | escape _ _ ht | stored _ _ _ ht => subst ht; exact .of_trace_eq rfl
  | noise _ _ ht | overflowed _ _ _ ht => subst ht; exact .discard _ rfl
  | ended u es _ _ _ hv ht =>
    subst ht
    split <;> exact hv.growsWithoutRx

/-- Settles O48: only a receive step takes a byte, its event is the first, and what follows it takes none; a rule of
the session appends its events with no byte among them. -/
theorem byteTakenFirst : Obligations.ByteTakenFirst := by
  intro s t h
  obtain ⟨-, hcases⟩ := step_next_cases h
  rcases hcases with ⟨-, -, rfl⟩ | ⟨-, -, rfl⟩ | ⟨-, -, rfl⟩ | ⟨-, -, -, rfl⟩ | ⟨l, -, -, -, rfl⟩ |
    ⟨b, l, -, -, -, hrecv⟩ | ⟨-, -, -, rfl⟩ | ⟨l, -, -, -, rfl⟩ | ⟨l, -, -, -, rfl⟩
  · exact ⟨[.enter true], rfl, rfl⟩
  · exact ⟨[.enter false, .jumpToApplication s.cfg.appStartAddr], by simp [jumpApp_eq], rfl⟩
  · exact ⟨[.wdt], rfl, rfl⟩
  · exact ⟨[], by simp, rfl⟩
  · exact ⟨[], by simp, rfl⟩
  · obtain ⟨es, ht, hes⟩ := (received_of_recvByte hrecv).growsWithoutRx
    exact ⟨.rx b :: es, by simp [ht], by simpa using hes⟩
  · exact ⟨[.abort false], rfl, rfl⟩
  · exact ⟨[.abort false], rfl, rfl⟩
  · exact ⟨[.abort true, .jumpToApplication s.cfg.appStartAddr], by simp [jumpApp_eq], rfl⟩

end Sys2Proof.Machine

/-! ### Little-endian words: reading back what was written (R11, R74, R75) -/

namespace Sys2Proof

theorem le32_drop (s : List Byte) (n k : Nat) : le32 (s.drop n) k = le32 s (n + k) := by
  simp [le32, List.getD_eq_getElem?_getD, Nat.add_assoc]

theorem le32_take {s : List Byte} {n k : Nat} (h : k + 4 ≤ n) : le32 (s.take n) k = le32 s k := by
  have hbyte : ∀ j < n, (s.take n).getD j 0#8 = s.getD j 0#8 := fun j hj => by
    simp [List.getD_eq_getElem?_getD, List.getElem?_take_of_lt hj]
  simp only [le32, hbyte _ (show k < n by omega), hbyte _ (show k + 1 < n by omega),
    hbyte _ (show k + 2 < n by omega), hbyte _ (show k + 3 < n by omega)]

theorem argWords_take {A : List Byte} {m n : Nat} (h : 4 + 4 * n ≤ m) : argWords (A.take m) n = argWords A n := by
  refine List.map_congr_left fun k hk => le32_take ?_
  have := List.mem_range.1 hk
  omega

@[simp] theorem bytes32_length (w : Word) : (bytes32 w).length = 4 := rfl

theorem le32_bytes32_append (w : Word) (s : List Byte) : le32 (bytes32 w ++ s) 0 = w := by
  change w.extractLsb' 24 8 ++ w.extractLsb' 16 8 ++ w.extractLsb' 8 8 ++ w.extractLsb' 0 8 = w
  simp only [BitVec.extractLsb'_append_extractLsb'_eq_extractLsb', BitVec.extractLsb'_eq_self]

theorem le32_bytes32 (w : Word) : le32 (bytes32 w) 0 = w := by
  simpa using le32_bytes32_append w []

theorem wordBytes_cons (w : Word) (ws : List Word) : wordBytes (w :: ws) = bytes32 w ++ wordBytes ws :=
  List.flatMap_cons

theorem wordBytes_length (ws : List Word) : (wordBytes ws).length = 4 * ws.length := by
  induction ws with
  | nil => rfl
  | cons w ws ih => rw [wordBytes_cons, List.length_append, ih, bytes32_length, List.length_cons]; omega

theorem le32_bytes32_append_add (w : Word) (s : List Byte) (k : Nat) : le32 (bytes32 w ++ s) (4 + k) = le32 s k :=
  (le32_drop (bytes32 w ++ s) 4 k).symm

theorem le32_wordBytes {ws : List Word} {k : Nat} (h : k < ws.length) : le32 (wordBytes ws) (4 * k) = ws[k] := by
  induction ws generalizing k with
  | nil => cases h
  | cons w ws ih =>
    rw [wordBytes_cons]
    cases k with
    | zero => exact le32_bytes32_append w _
    | succ k =>
      rw [Nat.mul_succ, Nat.add_comm, le32_bytes32_append_add]
      exact ih (Nat.lt_of_succ_lt_succ h)

/-- The words of a write command's arguments are the words the encoder wrote after the address (R110). -/
theorem argWords_bytes32_append_wordBytes (a : Addr) (ws : List Word) :
    argWords (bytes32 a ++ wordBytes ws) ws.length = ws := by
  refine List.ext_getElem (by simp [argWords]) fun k _ hk => ?_
  simp [argWords, le32_bytes32_append_add, le32_wordBytes hk]

end Sys2Proof

/-! ### The decoder on a payload: one equation for each outcome of R210 -/

namespace Sys2Proof

variable {c : Cfg} {lo hi code : Byte} {A : List Byte}

theorem decodePayload_noCommand {P : List Byte} (h : P.length < 3) :
    decodePayload c P = .error (.noCommand P.length) := by
  rw [decodePayload, if_pos h]

theorem decodePayload_unknown (hcode : code ∉ commandCodes) :
    decodePayload c (lo :: hi :: code :: A) = .ok (.unknown code) := by
  simp [decodePayload, hcode]

theorem decodePayload_shortArgs (hcode : code ∈ commandCodes) (hA : A.length < req c code) :
    decodePayload c (lo :: hi :: code :: A) = .error (.shortArgs code A.length) := by
  simp [decodePayload, hcode, hA]

theorem decodePayload_known (hcode : code ∈ commandCodes) (hA : req c code ≤ A.length) :
    decodePayload c (lo :: hi :: code :: A) = .ok (commandOf c code A) := by
  simp [decodePayload, hcode, Nat.not_lt.2 hA]

/-- An encoded command is read back from its code and arguments; the length field the encoder writes plays no part
(R105). -/
theorem decode_logicalBody (hcode : code ∈ commandCodes) (hA : req c code ≤ A.length) :
    decode c .payload (logicalBody code A) = .ok (commandOf c code A).toInstr :=
  congrArg (Except.map Command.toInstr) (decodePayload_known hcode hA)

/-- The command read depends on no argument byte past `REQ` (R110). -/
theorem commandOf_take_req (c : Cfg) (code : Byte) (A : List Byte) :
    commandOf c code (A.take (req c code)) = commandOf c code A := by
  unfold commandOf
  split <;> simp [req, le32_take, argWords_take]

theorem commandOf_ne_unknown (hcode : code ∈ commandCodes) (code' : Byte) : commandOf c code A ≠ .unknown code' := by
  simp only [commandCodes, List.cons_append, List.nil_append, List.mem_cons, List.not_mem_nil, or_false] at hcode
  rcases hcode with rfl | rfl | rfl | rfl | rfl | rfl | rfl | rfl | rfl | rfl | rfl | rfl | rfl | rfl <;> nofun

/-- The codes outside the map are the five ranges of R109. -/
theorem not_mem_commandCodes_iff :
    code ∉ commandCodes ↔
      (0x08 ≤ code.toNat ∧ code.toNat ≤ 0x0F) ∨ (0x11 ≤ code.toNat ∧ code.toNat ≤ 0x1F) ∨
      (0x22 ≤ code.toNat ∧ code.toNat ≤ 0x2F) ∨ (0x32 ≤ code.toNat ∧ code.toNat ≤ 0x3F) ∨
      (0x41 ≤ code.toNat ∧ code.toNat ≤ 0xFF) := by
  simp [commandCodes, ← BitVec.toNat_inj]
  omega

theorem decodePayload_eq_unknown_iff :
    decodePayload c (lo :: hi :: code :: A) = .ok (.unknown code) ↔ code ∉ commandCodes := by
  refine ⟨fun h hcode => ?_, decodePayload_unknown⟩
  by_cases hA : A.length < req c code
  · simp [decodePayload_shortArgs hcode hA] at h
  · rw [decodePayload_known hcode (Nat.not_lt.1 hA), Except.ok.injEq] at h
    exact commandOf_ne_unknown hcode code h

theorem req_eq_zero_of_query (c : Cfg) (hcode : code.toNat ≤ 7) : req c code = 0 := by
  unfold req
  split
  case h_6 => rfl
  all_goals exact absurd hcode (by decide)

end Sys2Proof

/-! ### The statements about the decoder and the encoder -/

namespace Sys2Proof

/-- Settles O4, by the four outcomes of the decoder on a payload. -/
theorem argumentLengthRule : Obligations.ArgumentLengthRule := by
  intro c
  refine ⟨⟨rfl, rfl, rfl, rfl, rfl, rfl, fun _ => req_eq_zero_of_query c⟩, fun _ => decodePayload_noCommand,
    fun lo hi code A hcode => ⟨decodePayload_shortArgs hcode, fun hA => ⟨_, decodePayload_known hcode hA, ?_⟩⟩⟩
  rw [decodePayload_known hcode (List.length_take_of_le hA).ge, commandOf_take_req]

/-- Settles O21: a payload decodes to an unknown command exactly when its code is none of the 14, and performing one
is recording it. -/
theorem unknownCodesAreNoOps : Obligations.UnknownCodesAreNoOps :=
  ⟨fun _ _ _ _ _ => decodePayload_eq_unknown_iff.trans not_mem_commandCodes_iff, fun _ _ => rfl⟩

/-- Settles O1: a command's operands are read back from the bytes the encoder wrote for them, and an unknown code or a
wire byte is in its class by well-formedness. -/
theorem decodeOfEncodeIsTheInstruction : Obligations.DecodeOfEncodeIsTheInstruction := by
  intro c i hwf
  cases i with
  | readPlatform | readVersion | readRowLen | readPageLen | readProgLen | readMaxProgSize | readAppStartAddr
  | readBootStartAddr | startApp => exact decode_logicalBody (by decide) (Nat.zero_le _)
  | erasePage a | readAddr a | readMax a =>
    refine (decode_logicalBody (by decide) (by simp [req])).trans ?_
    simp [commandOf, Command.toInstr, le32_bytes32]
  | writeRow a ws | writeMaxProgSize a ws =>
    have hlen := beq_iff_eq.1 hwf
    refine (decode_logicalBody (by decide) (by simp [req, wordBytes_length, hlen])).trans ?_
    simp [commandOf, Command.toInstr, le32_bytes32_append, ← hlen, argWords_bytes32_append_wordBytes]
  | unknown code =>
    have hcode : code ∉ commandCodes := by simpa [Instr.wellFormed] using hwf
    exact congrArg (Except.map Command.toInstr) (decodePayload_unknown hcode)
  | startMarker | escapeMarker | endMarker | escapedByte b => rfl
  | noise b =>
    have hb : b ≠ startMarkerByte := by simpa [Instr.wellFormed] using hwf
    simp [Instr.context, encode, decode, decodeWire, hb]
  | data b =>
    have hb : b ≠ escapeMarkerByte ∧ b ≠ endMarkerByte := by simpa [Instr.wellFormed] using hwf
    simp [Instr.context, encode, decode, decodeWire, hb]

/-- Settles O3: each word is decoded by evaluation. -/
theorem specWordsDecode : Obligations.SpecWordsDecode :=
  ⟨rfl, rfl, rfl, rfl, rfl, rfl, rfl, rfl⟩

end Sys2Proof

/-! ### Markers inside a frame (R102, R103) -/

namespace Sys2Proof

/-- What `esc` sends: the byte itself when it is no marker, else the escape marker and an escaped value (R102). -/
theorem esc_cases (b : Byte) :
    (esc b = [b] ∧ b ≠ 0xF7#8 ∧ b ≠ 0x7F#8 ∧ b ≠ 0xF6#8) ∨
    ∃ x, esc b = [0xF6#8, x] ∧ (x = 0xD7#8 ∨ x = 0x5F#8 ∨ x = 0xD6#8) := by
  by_cases hb : isMarker b = true
  · refine .inr ⟨b ^^^ escapeXor, if_pos hb, ?_⟩
    simp only [isMarker, Bool.or_eq_true, beq_iff_eq] at hb
    rcases hb with (rfl | rfl) | rfl <;> decide
  · refine .inl ⟨if_neg hb, ?_⟩
    simpa [isMarker, startMarkerByte, endMarkerByte, escapeMarkerByte, and_assoc] using hb

theorem esc_no_frame_marker {b x : Byte} (hx : x ∈ esc b) : x ≠ 0xF7#8 ∧ x ≠ 0x7F#8 := by
  rcases esc_cases b with ⟨e, hstart, hend, -⟩ | ⟨y, e, hy⟩
  · rw [e, List.mem_singleton] at hx
    exact hx ▸ ⟨hstart, hend⟩
  · simp only [e, List.mem_cons, List.not_mem_nil, or_false] at hx
    rcases hx with rfl | rfl
    · decide
    · rcases hy with rfl | rfl | rfl <;> decide

/-- In an escaped sequence an escape marker is always followed by an escaped value (R103). -/
theorem escaped_value_after_escapeMarker {l before after : List Byte}
    (h : l.flatMap esc = before ++ 0xF6#8 :: after) :
    ∃ x rest, after = x :: rest ∧ (x = 0xD7#8 ∨ x = 0x5F#8 ∨ x = 0xD6#8) := by
  induction l generalizing before with
  | nil => simp at h
  | cons b l ih =>
    rw [List.flatMap_cons] at h
    rcases esc_cases b with ⟨e, -, -, hb⟩ | ⟨x, e, hx⟩ <;> rw [e] at h
    · rcases before with _ | ⟨b', before⟩
      · exact absurd (List.cons.inj h).1 hb
      · exact ih (List.cons.inj h).2
    · rcases before with _ | ⟨b', _ | ⟨x', before⟩⟩
      · exact ⟨x, l.flatMap esc, (List.cons.inj h).2.symm, hx⟩
      · obtain ⟨rfl, -⟩ := List.cons.inj (List.cons.inj h).2
        exact absurd hx (by decide)
      · exact ih (List.cons.inj (List.cons.inj h).2).2

/-- Settles O5: between its markers a frame is an escaped sequence. -/
theorem noMarkerInsideFrame : Obligations.NoMarkerInsideFrame := by
  intro cmd data
  refine ⟨(withChecksum (logicalBody cmd data)).flatMap esc, rfl, fun b hb => ?_, fun before after h => ?_⟩
  · obtain ⟨y, -, hy⟩ := List.mem_flatMap.1 hb
    exact esc_no_frame_marker hy
  · exact escaped_value_after_escapeMarker (h.trans (List.append_assoc before [0xF6#8] after))

end Sys2Proof

/-! ### The checksum in numbers (R140, R142, R143) -/

namespace Sys2Proof.Machine

theorem runningChecksum_toNat (s : State) : (runningChecksum s).toNat = s.sum2.toNat * 256 + s.sum1.toNat := by
  rw [runningChecksum, BitVec.toNat_append, ← Nat.shiftLeft_add_eq_or_of_lt s.sum1.isLt, Nat.shiftLeft_eq]

theorem accumulate_sum1_toNat (b : Byte) (s : State) :
    (accumulate b s).sum1.toNat = (s.sum1.toNat + b.toNat) % 256 := BitVec.toNat_add ..

theorem accumulate_sum2_toNat (b : Byte) (s : State) :
    (accumulate b s).sum2.toNat = (s.sum2.toNat + (accumulate b s).sum1.toNat) % 256 := BitVec.toNat_add ..

/-- `Compute` is what the accumulator holds after the same bytes from zero sums (R143). -/
theorem compute_eq_runningChecksum {s : State} (h1 : s.sum1 = 0#8) (h2 : s.sum2 = 0#8) (l : List Byte) (n : Nat) :
    compute l n = runningChecksum (accumulateAll (l.take n) s) := by
  rw [runningChecksum_accumulateAll, h1, h2, compute]

theorem accumulateAll_take_succ {l : List Byte} {n : Nat} (hn : n < l.length) (s : State) :
    accumulateAll (l.take (n + 1)) s = accumulate l[n] (accumulateAll (l.take n) s) := by
  rw [List.take_succ_eq_append_getElem hn, accumulateAll_append]
  rfl

/-- The low sum is the sum of the bytes accumulated. -/
theorem accumulateAll_take_sum1_toNat {s : State} (h1 : s.sum1 = 0#8) {l : List Byte} {n : Nat} (hn : n ≤ l.length) :
    (accumulateAll (l.take n) s).sum1.toNat = ((l.take n).map BitVec.toNat).sum % 256 := by
  induction n with
  | zero => simp [accumulateAll, h1]
  | succ n ih =>
    rw [accumulateAll_take_succ hn, accumulate_sum1_toNat, ih (Nat.le_of_succ_le hn), Nat.mod_add_mod,
      List.take_succ_eq_append_getElem hn, List.map_append, List.sum_append, List.map_singleton, List.sum_singleton]

/-- Each byte adds the low sum reached with it to the high one, which is thus the sum of the prefix sums. -/
theorem accumulateAll_take_sum2_toNat {s : State} (h1 : s.sum1 = 0#8) (h2 : s.sum2 = 0#8) {l : List Byte} {n : Nat}
    (hn : n ≤ l.length) :
    (accumulateAll (l.take n) s).sum2.toNat =
      ((List.range n).map fun k => ((l.take (k + 1)).map BitVec.toNat).sum).sum % 256 := by
  induction n with
  | zero => simp [accumulateAll, h2]
  | succ n ih =>
    have hlow := accumulateAll_take_sum1_toNat h1 hn
    rw [accumulateAll_take_succ hn] at hlow ⊢
    rw [accumulate_sum2_toNat, hlow, ih (Nat.le_of_succ_le hn), ← Nat.add_mod, List.sum_range_succ]

/-- Settles O7, by the accumulator's two sums from the zero sums of reset. -/
theorem checksumBytesAreSums : Obligations.ChecksumBytesAreSums := by
  intro l n hn
  rw [compute_eq_runningChecksum (s := State.reset) rfl rfl, runningChecksum_toNat,
    accumulateAll_take_sum1_toNat rfl hn, accumulateAll_take_sum2_toNat rfl rfl hn]

/-- Settles O6: both forms run the same loop, and accumulation writes the sums only. -/
theorem checksumFormsAgree : Obligations.ChecksumFormsAgree := by
  intro s l h1 h2
  refine ⟨?_, accumulateAll_eq l s⟩
  rw [compute_eq_runningChecksum h1 h2, List.take_length]

/-- Settles O8, by the value of each sum after one byte. -/
theorem accumulateStep : Obligations.AccumulateStep := fun s b =>
  ⟨_, rfl, accumulate_sum1_toNat b s, accumulate_sum2_toNat b s, runningChecksum_toNat _, rfl⟩

end Sys2Proof.Machine

/-! ### The bytes of a frame (R11, R101, R106, R142) -/

namespace Sys2Proof

theorem logicalBody_length (cmd : Byte) (data : List Byte) : (logicalBody cmd data).length = data.length + 3 := by
  simp [logicalBody, bytes16]

theorem withChecksum_length (body : List Byte) : (withChecksum body).length = body.length + 2 := by
  simp [withChecksum, bytes16]

theorem withChecksum_take (body : List Byte) : (withChecksum body).take body.length = body := by
  simp [withChecksum]

/-- The checksum a receiver computes over a logical frame is the one the frame carries: `Compute` does not look past
the body (R142). -/
theorem compute_withChecksum (body : List Byte) :
    compute (withChecksum body) body.length = compute body body.length := by
  rw [compute, compute, withChecksum_take, List.take_length]

/-- Two bytes written low byte first are read back (R11). -/
theorem le16_append_bytes16 (s : List Byte) (v : BitVec 16) : le16 (s ++ bytes16 v) s.length = v := by
  have hlo : (s ++ bytes16 v).getD s.length 0#8 = v.extractLsb' 0 8 := by simp [bytes16]
  have hhi : (s ++ bytes16 v).getD (s.length + 1) 0#8 = v.extractLsb' 8 8 := by simp [bytes16]
  rw [le16, hlo, hhi, BitVec.extractLsb'_append_extractLsb'_eq_extractLsb' (by rfl), BitVec.extractLsb'_eq_self]

theorem esc_length_pos (b : Byte) : 1 ≤ (esc b).length := by
  rcases esc_cases b with ⟨e, -⟩ | ⟨x, e, -⟩ <;> simp [e]

/-- Escaping never shortens. -/
theorem length_le_length_flatMap_esc (l : List Byte) : l.length ≤ (l.flatMap esc).length := by
  induction l with
  | nil => rfl
  | cons b l ih =>
    have := esc_length_pos b
    rw [List.flatMap_cons, List.length_append, List.length_cons]
    omega

/-- A raw frame has at least its seven bytes of markers, length, command and checksum, and its data. -/
theorem length_add_le_length_rawFrame (cmd : Byte) (data : List Byte) :
    data.length + 7 ≤ (rawFrame cmd data).length := by
  have hesc := length_le_length_flatMap_esc (withChecksum (logicalBody cmd data))
  rw [withChecksum_length, logicalBody_length] at hesc
  rw [rawFrame, frameOfBody, List.length_append, List.length_append, List.length_singleton, List.length_singleton]
  omega

end Sys2Proof

/-! ### The buffer that holds a logical frame (R34, R106, R188) -/

namespace Sys2Proof.Machine

/-- Storing a sequence writes its bytes from index `k` on and leaves every other byte. -/
theorem Memory.read_storeFrom {m : Memory} (h : m.wf = true) (k : Nat) (l : List Byte) (j : Nat) :
    (storeFrom k l m).read j = if k ≤ j then l.getD (j - k) (m.read j) else m.read j := by
  induction l generalizing k m with
  | nil => simp [storeFrom]
  | cons b l ih =>
    rw [storeFrom, ih (Memory.wf_write h k b), Memory.read_write h]
    rcases lt_trichotomy j k with hj | rfl | hj
    · simp [hj.ne, Nat.not_le.2 hj, Nat.not_le.2 (Nat.lt_succ_of_lt hj)]
    · simp
    · obtain ⟨d, rfl⟩ := Nat.exists_eq_add_of_le (Nat.succ_le_of_lt hj)
      simp [hj.le, hj.ne', show k + 1 + d - k = d + 1 by omega]

/-- The receiver holds exactly the sequence `l`: the cursor is at its end, and the buffer is zero past it. -/
structure State.Holds (l : List Byte) (s : State) : Prop where
  cursor : s.i = l.length
  bytes : ∀ k, s.buf.read k = l.getD k 0#8

theorem State.Holds.buffered {l : List Byte} {s : State} (h : s.Holds l) {n : Nat} (hn : n ≤ l.length) :
    buffered s n = l.take n := by
  refine List.ext_getElem (by simp [Machine.buffered, hn]) fun k _ hk => ?_
  have hk' : k < l.length := hk.trans_le (List.length_take_le' n l)
  simp [Machine.buffered, h.bytes, hk']

section
variable {body : List Byte} {s : State}

/-- The payload of a logical frame in the buffer is its body (R188). -/
theorem State.Holds.payload_eq (h : s.Holds (withChecksum body)) : payload s = body := by
  have hi : s.i - 2 = body.length := by rw [h.cursor, withChecksum_length, Nat.add_sub_cancel]
  rw [payload, hi, h.buffered (by rw [withChecksum_length]; omega), withChecksum_take]

/-- A logical frame in the buffer is verified (R188, R143). -/
theorem State.Holds.cksumOk (h : s.Holds (withChecksum body)) : cksumOk s = true := by
  have hi : s.i = body.length + 2 := h.cursor.trans (withChecksum_length body)
  have hreceived : receivedChecksum s = compute body body.length := by
    rw [receivedChecksum, h.bytes, h.bytes, hi]
    exact le16_append_bytes16 body _
  have hcomputed : compute (Machine.buffered s s.i) (s.i - 2) = compute body body.length := by
    rw [h.buffered h.cursor.le, h.cursor, List.take_length, withChecksum_length, Nat.add_sub_cancel,
      compute_withChecksum]
  rw [Machine.cksumOk, hcomputed, hreceived, beq_self_eq_true]

end

end Sys2Proof.Machine

/-! ### The bytes of a frame, taken one step at a time (R180 to R186) -/

namespace Sys2Proof.Machine

/-- Two runs one after the other. -/
theorem runSteps_add (m n : Nat) (s : State) : runSteps (m + n) s = andThen (runSteps m s) (runSteps n) := by
  induction m generalizing s with
  | zero => simp [runSteps]
  | succ m ih =>
    rw [Nat.succ_add, runSteps, runSteps, andThen_assoc]
    congr 1
    funext t
    exact ih t

/-! #### What a receive step does, one equation for each wire class -/

section
variable {b : Byte} {s : State}

theorem recvByte_startMarker (hp : s.pstate = .waitForStart) :
    recvByte startMarkerByte s = .next ((s.emit (.rx startMarkerByte)).withPState .readVerbatim) := by
  simp [recvByte, hp, decode, decodeWire, exec, execStartMarker]

theorem recvByte_escapeMarker (hp : s.pstate = .readVerbatim) :
    recvByte escapeMarkerByte s = .next ((s.emit (.rx escapeMarkerByte)).withPState .readEscaped) := by
  simp [recvByte, hp, decode, decodeWire, exec, execEscapeMarker]

theorem recvByte_endMarker (hp : s.pstate = .readVerbatim) :
    recvByte endMarkerByte s = execEndMarker (s.emit (.rx endMarkerByte)) := by
  simp [recvByte, hp, decode, decodeWire, show endMarkerByte ≠ escapeMarkerByte by decide, exec]

theorem recvByte_data (hp : s.pstate = .readVerbatim) (hb : isMarker b = false) :
    recvByte b s = append b (s.emit (.rx b)) := by
  simp only [isMarker, Bool.or_eq_false_iff] at hb
  obtain ⟨⟨-, hend⟩, hesc⟩ := hb
  simp [recvByte, hp, decode, decodeWire, hend, hesc, exec, execData]

theorem recvByte_escapedByte (hp : s.pstate = .readEscaped) :
    recvByte b s = append (b ^^^ escapeXor) ((s.emit (.rx b)).withPState .readVerbatim) := by
  simp [recvByte, hp, decode, decodeWire, exec, execEscapedByte]

end

/-! #### Runs of the drain -/

/-- A legally configured block that waits for bytes: in BOOT_WAIT, with the drain next (R282). -/
structure State.Draining (s : State) : Prop where
  legal : s.cfg.Legal
  mode : s.mode = .bootWait
  phase : s.phase = .drain

/-- A block in the drain takes the byte RX answers with (R193). -/
theorem step_of_rx {b : Byte} {l : List (Option Byte)} {s : State} (hs : s.Draining) (hrx : s.rx = some b :: l) :
    step s = recvByte b (s.withRx l) := by
  simp [step_of_legal hs.legal, stepMode, hs.mode, loopPart, hs.phase, drainPart, pollRx, hrx]

/-- `s` after the raw bytes `raw` were taken from RX, which answers `rest` from then on. -/
def State.took (raw : List Byte) (rest : List (Option Byte)) (s : State) : State :=
  (s.emitAll (raw.map .rx)).withRx rest

/-- `s` with the logical bytes `l` stored from the cursor on. -/
def State.stored (l : List Byte) (s : State) : State :=
  (s.withBuf (storeFrom s.i l s.buf)).withI (s.i + l.length)

theorem append_eq_stored {v : Byte} {s : State} (h : s.i + 1 < s.cfg.cap) : append v s = .next (s.stored [v]) := by
  rcases append_cases v s with ⟨hcap, -⟩ | ⟨-, e⟩ | ⟨hcap, -⟩
  · omega
  · exact e
  · omega

theorem State.stored_nil_took_nil {s : State} {rest : List (Option Byte)} (hrx : s.rx = rest) :
    (s.stored []).took [] rest = s := by
  subst hrx
  simp [State.stored, State.took, State.withBuf, State.withI, State.emitAll, State.withRx, storeFrom]

theorem State.stored_cons (b : Byte) (l : List Byte) (s : State) : s.stored (b :: l) = (s.stored [b]).stored l := by
  simp [State.stored, State.withBuf, State.withI, storeFrom, Nat.add_assoc, Nat.add_comm 1]

/-- Storing and taking commute, and two takes are one. -/
theorem State.took_stored_took (raw raw' l : List Byte) (rest rest' : List (Option Byte)) (s : State) :
    ((s.took raw rest).stored l).took raw' rest' = (s.stored l).took (raw ++ raw') rest' := by
  simp [State.stored, State.took, State.withBuf, State.withI, State.emitAll, State.withRx]

theorem State.took_withPState (raw : List Byte) (rest : List (Option Byte)) (p : PState) (s : State) :
    (s.took raw rest).withPState p = (s.withPState p).took raw rest := rfl

/-- `s` after all raw bytes of a frame but its end marker: the logical bytes stored, the end marker next on RX. -/
def State.frameTaken (body : List Byte) (rest : List (Option Byte)) (s : State) : State :=
  ((s.withPState .readVerbatim).stored (withChecksum body)).took (frameOfBody body).dropLast
    (some endMarkerByte :: rest)

section
variable {b : Byte} {rest : List (Option Byte)} {s : State}

/-- The start marker opens the frame (R181). -/
theorem step_startMarker (hs : s.Draining) (hp : s.pstate = .waitForStart) (hrx : s.rx = some startMarkerByte :: rest) :
    step s = .next ((s.withPState .readVerbatim).took [startMarkerByte] rest) :=
  (step_of_rx hs hrx).trans (recvByte_startMarker hp)

theorem step_escapeMarker (hs : s.Draining) (hp : s.pstate = .readVerbatim)
    (hrx : s.rx = some escapeMarkerByte :: rest) :
    step s = .next ((s.withPState .readEscaped).took [escapeMarkerByte] rest) :=
  (step_of_rx hs hrx).trans (recvByte_escapeMarker hp)

theorem step_data (hs : s.Draining) (hp : s.pstate = .readVerbatim) (hb : isMarker b = false)
    (hi : s.i + 1 < s.cfg.cap) (hrx : s.rx = some b :: rest) : step s = .next ((s.stored [b]).took [b] rest) := by
  rw [step_of_rx hs hrx, recvByte_data (s := s.withRx rest) hp hb, append_eq_stored (by exact hi)]
  rfl

/-- The XOR of an escaped byte undoes the encoder's (R102, R185). -/
theorem step_escapedByte (hs : s.Draining) (hp : s.pstate = .readEscaped) (hi : s.i + 1 < s.cfg.cap)
    (hrx : s.rx = some (b ^^^ escapeXor) :: rest) :
    step s = .next (((s.withPState .readVerbatim).stored [b]).took [b ^^^ escapeXor] rest) := by
  rw [step_of_rx hs hrx, recvByte_escapedByte (s := s.withRx rest) hp, BitVec.xor_assoc, BitVec.xor_self,
    BitVec.xor_zero, append_eq_stored (by exact hi)]
  rfl

/-- The one or two raw bytes of an escaped logical byte are taken one step each, and the logical byte is stored (R102,
R184, R185). -/
theorem runSteps_esc (hs : s.Draining) (hp : s.pstate = .readVerbatim) (hi : s.i + 1 < s.cfg.cap)
    (hrx : s.rx = (esc b).map some ++ rest) :
    runSteps (esc b).length s = .next ((s.stored [b]).took (esc b) rest) := by
  cases hb : isMarker b with
  | false =>
    have he : esc b = [b] := by simp [esc, hb]
    rw [he] at hrx ⊢
    simp [runSteps, step_data hs hp hb hi hrx]
  | true =>
    have he : esc b = [escapeMarkerByte, b ^^^ escapeXor] := by simp [esc, hb]
    rw [he] at hrx ⊢
    have hmarker := step_escapeMarker hs hp hrx
    have hvalue := step_escapedByte (b := b) (rest := rest)
      (s := (s.withPState .readEscaped).took [escapeMarkerByte] (some (b ^^^ escapeXor) :: rest))
      ⟨hs.legal, hs.mode, hs.phase⟩ rfl hi rfl
    have hstate : (s.withPState .readEscaped).withPState .readVerbatim = s := State.withPState_self hp
    simp [runSteps, hmarker, hvalue, State.took_withPState, hstate, State.took_stored_took]

/-- The escaped bytes of a sequence are taken one step each, and the sequence itself is stored (R165, S1). -/
theorem runSteps_flatMap_esc {l : List Byte} (hs : s.Draining) (hp : s.pstate = .readVerbatim)
    (hi : s.i + l.length < s.cfg.cap) (hrx : s.rx = (l.flatMap esc).map some ++ rest) :
    runSteps (l.flatMap esc).length s = .next ((s.stored l).took (l.flatMap esc) rest) := by
  induction l generalizing s with
  | nil => exact congrArg _ (State.stored_nil_took_nil hrx).symm
  | cons b l ih =>
    rw [List.length_cons] at hi
    have hfirst : runSteps (esc b).length s =
        .next ((s.stored [b]).took (esc b) ((l.flatMap esc).map some ++ rest)) :=
      runSteps_esc hs hp (by omega) (by simpa using hrx)
    have hrest := ih (s := (s.stored [b]).took (esc b) ((l.flatMap esc).map some ++ rest))
      ⟨hs.legal, hs.mode, hs.phase⟩ hp (show s.i + 1 + l.length < s.cfg.cap by omega) rfl
    rw [List.flatMap_cons, List.length_append, runSteps_add, hfirst, andThen_next, hrest,
      State.took_stored_took, ← State.stored_cons]

/-- All raw bytes of a frame but its end marker are taken one step each, and its logical bytes are stored. -/
theorem runSteps_frame {body : List Byte} (hs : s.Draining) (hp : s.pstate = .waitForStart)
    (hi : s.i + (withChecksum body).length < s.cfg.cap) (hrx : s.rx = (frameOfBody body).map some ++ rest) :
    runSteps ((frameOfBody body).length - 1) s = .next (s.frameTaken body rest) := by
  have hraw : (frameOfBody body).dropLast = startMarkerByte :: (withChecksum body).flatMap esc := by
    rw [frameOfBody, List.dropLast_concat]; rfl
  have hrx' : s.rx =
      some startMarkerByte :: (((withChecksum body).flatMap esc).map some ++ some endMarkerByte :: rest) := by
    rw [hrx, frameOfBody]; simp
  have hstart := step_startMarker hs hp hrx'
  have hbody := runSteps_flatMap_esc (l := withChecksum body) (rest := some endMarkerByte :: rest)
    (s := (s.withPState .readVerbatim).took [startMarkerByte]
      (((withChecksum body).flatMap esc).map some ++ some endMarkerByte :: rest))
    ⟨hs.legal, hs.mode, hs.phase⟩ rfl hi rfl
  rw [← List.length_dropLast, State.frameTaken, hraw, List.length_cons, runSteps, hstart, andThen_next, hbody,
    State.took_stored_took, List.singleton_append]

end

/-! #### The end of a verified frame -/

/-- The end marker of a verified frame is the dispatch of its payload, after the liveness pulse, and what follows a
frame (R183, R188, R190). -/
theorem execEndMarker_of_verified {s : State} (hcap : s.i ≤ s.cfg.cap) (hi : 2 ≤ s.i) (hc : cksumOk s = true) :
    execEndMarker s =
      andThen (dispatch (payload s) ((s.withPState .endOfMessage).emit .live)) finishFrame := by
  have hend : execEndMarker s = andThen (judgeFrame (s.withPState .endOfMessage)) finishFrame := if_pos hcap
  rw [hend]
  rcases judgeFrame_cases (s.withPState .endOfMessage) with ⟨hshort, -⟩ | ⟨-, hbad, -⟩ | ⟨-, -, e⟩
  · exact absurd hi (Nat.not_le.2 hshort)
  · exact absurd (hc.symm.trans hbad) (by simp)
  · rw [e]; rfl

/-- With a logical frame in the buffer, the step that takes the end marker is the dispatch of its body. -/
theorem step_endMarker_of_holds {body : List Byte} {rest : List (Option Byte)} {s : State} (hs : s.Draining)
    (hp : s.pstate = .readVerbatim) (hbody : s.Holds (withChecksum body)) (hcap : s.i ≤ s.cfg.cap)
    (hrx : s.rx = some endMarkerByte :: rest) :
    step s = andThen (dispatch body (((s.withRx rest).withPState .endOfMessage).emitAll [.rx endMarkerByte, .live]))
      finishFrame := by
  have hi : 2 ≤ s.i := by rw [hbody.cursor, withChecksum_length]; omega
  have hpayload : payload ((s.withRx rest).emit (.rx endMarkerByte)) = body := hbody.payload_eq
  rw [step_of_rx hs hrx, recvByte_endMarker (s := s.withRx rest) hp,
    execEndMarker_of_verified (by exact hcap) (by exact hi) (by exact hbody.cksumOk), hpayload]
  simp [State.emit, State.emitAll, State.withRx, State.withPState]

/-- A receiver with an empty buffer holds exactly what it has stored since. -/
theorem State.stored_holds {l : List Byte} {s : State} (hi : s.i = 0) (hb : s.buf = []) : (s.stored l).Holds l := by
  refine ⟨by simp [State.stored, hi], fun k => ?_⟩
  simp [State.stored, hi, hb, Memory.read_storeFrom Memory.wf_nil]

/-- A frame taken by an empty receiver stands in its buffer. -/
theorem State.frameTaken_holds {body : List Byte} {rest : List (Option Byte)} {s : State} (hi : s.i = 0)
    (hb : s.buf = []) : (s.frameTaken body rest).Holds (withChecksum body) :=
  have h := State.stored_holds (s := s.withPState .readVerbatim) (l := withChecksum body) hi hb
  ⟨h.cursor, h.bytes⟩

/-- Settles O33: the steps before the last leave the frame's logical bytes in the buffer, where the checksum they carry
verifies them; the end marker then dispatches the body. -/
theorem frameRoundTrip : Obligations.FrameRoundTrip := by
  intro s cmd data rest hlegal hmode hphase hp hi hbuf hcap hrx
  have hlen : (withChecksum (logicalBody cmd data)).length = data.length + 5 := by
    rw [withChecksum_length, logicalBody_length]
  have hholds := State.frameTaken_holds (body := logicalBody cmd data) (rest := rest) hi hbuf
  have hcursor : (s.frameTaken (logicalBody cmd data) rest).i = data.length + 5 := hholds.cursor.trans hlen
  refine ⟨s.frameTaken (logicalBody cmd data) rest, runSteps_frame ⟨hlegal, hmode, hphase⟩ hp (by omega) hrx, ?_,
    hholds.cksumOk, hholds.payload_eq, ?_⟩
  · rw [← hcursor]
    rfl
  · have hroom : (s.frameTaken (logicalBody cmd data) rest).i ≤ s.cfg.cap := by omega
    exact step_endMarker_of_holds (s := s.frameTaken (logicalBody cmd data) rest) ⟨hlegal, hmode, hphase⟩ rfl hholds
      hroom rfl

end Sys2Proof.Machine

/-! ### A sink that blocks inside a reply (R164, D39) -/

namespace Sys2Proof.Machine

/-- A query is one reply frame, of the code and data listed for it (R215 to R223). -/
theorem exec_query {s : State} {q : Instr × Byte × List Byte} (hq : q ∈ queryReplies s.cfg) :
    exec q.1 s = sendFrame q.2.1 q.2.2 s := by
  simp only [queryReplies, List.mem_cons, List.not_mem_nil, or_false] at hq
  rcases hq with rfl | rfl | rfl | rfl | rfl | rfl | rfl | rfl <;> rfl

theorem spanAddr_eq (a : Addr) (k : Nat) : spanAddr a k = a + BitVec.ofNat 32 (2 * k) := by
  rw [spanAddr, addrStep, Nat.mul_comm]

/-- The read events of a span, word by word (R246). -/
theorem zipWith_readWord_spanAddrs (a : Addr) {n : Nat} {ws : List Word} (hlen : ws.length = n) :
    List.zipWith Event.readWord (spanAddrs a n) ws =
      (List.range n).map fun k => .readWord (a + BitVec.ofNat 32 (2 * k)) (ws.getD k 0#32) := by
  refine List.ext_getElem (by simp [spanAddrs, hlen]) fun k _ hk => ?_
  have hk' : k < ws.length := by simpa [hlen] using hk
  simp [spanAddrs, spanAddr_eq, hk']

section
variable {s : State} {n : Nat} (a : Addr) (hn : s.txAccepts = some n)
include hn

/-- READ_ADDR makes its read, then is stuck inside the reply. -/
theorem exec_readAddr_of_blocked (h : n < (rawFrame 0x20#8 (bytes32 a ++ bytes32 (s.flash.read a).1)).length) :
    exec (.readAddr a) s = .fault (.sinkBlocked (s.trace ++ [.readWord a (s.flash.read a).1] ++
      ((rawFrame 0x20#8 (bytes32 a ++ bytes32 (s.flash.read a).1)).take n).map .tx)) :=
  sendFrame_of_blocked (s := (flashReadWord a s).2) hn h

/-- READ_MAX makes all its reads, then is stuck inside the reply. -/
theorem exec_readMax_of_blocked (h : n < 4 * s.cfg.maxProgSize + 11) : ∃ ws : List Word,
    ws.length = s.cfg.maxProgSize ∧
    exec (.readMax a) s = .fault (.sinkBlocked (s.trace ++ (List.range s.cfg.maxProgSize).map
      (fun k => .readWord (a + BitVec.ofNat 32 (2 * k)) (ws.getD k 0#32)) ++
        ((rawFrame 0x21#8 (bytes32 a ++ wordBytes ws)).take n).map .tx)) := by
  obtain ⟨ws, s1, hread⟩ : ∃ ws s1, flashReadWords (spanAddrs a s.cfg.maxProgSize) s = (ws, s1) := ⟨_, _, rfl⟩
  have hspec := flashReadWords_spec (spanAddrs a s.cfg.maxProgSize) s
  simp only [hread] at hspec
  obtain ⟨hcount, hafter, -, -⟩ := hspec
  have hlen : ws.length = s.cfg.maxProgSize := by simpa [spanAddrs] using hcount
  have hreply := length_add_le_length_rawFrame 0x21#8 (bytes32 a ++ wordBytes ws)
  rw [List.length_append, bytes32_length, wordBytes_length, hlen] at hreply
  have hexec : exec (.readMax a) s = sendFrame 0x21#8 (bytes32 a ++ wordBytes ws) s1 := by
    simp only [exec, execReadMax, hread]
  refine ⟨ws, hlen, ?_⟩
  rw [hexec, hafter, ← zipWith_readWord_spanAddrs a hlen]
  exact sendFrame_of_blocked (by exact hn) (by omega)

end

/-- Settles O12: each of the ten commands ends in a reply, which a sink that refuses one of its bytes stops. -/
theorem blockedSinkStopsReply : Obligations.BlockedSinkStopsReply := by
  intro s n hn
  refine ⟨fun q hq h => ?_, fun a h => exec_readAddr_of_blocked a hn h, fun a h => ?_⟩
  · rw [exec_query hq]
    exact sendFrame_of_blocked hn h
  · obtain ⟨ws, hlen, hexec⟩ := exec_readMax_of_blocked a hn h
    exact ⟨ws, _, hlen, rfl, hexec⟩

end Sys2Proof.Machine

/-! ### What the decoder gives (R100, R109, R110, R180) -/

namespace Sys2Proof

theorem Command.toInstr_context (k : Command) : k.toInstr.context = .payload := by
  cases k <;> rfl

theorem argWords_length (A : List Byte) (n : Nat) : (argWords A n).length = n := by
  simp [argWords]

/-- A known code gives a command with the number of words its code asks for (R110). -/
theorem commandOf_wellFormed {c : Cfg} {code : Byte} (hcode : code ∈ commandCodes) (A : List Byte) :
    (commandOf c code A).toInstr.wellFormed c = true := by
  cases hk : commandOf c code A with
  | unknown code' => exact absurd hk (commandOf_ne_unknown hcode code')
  | writeRow a ws | writeMaxProgSize a ws =>
    unfold commandOf at hk
    split at hk <;> cases hk
    simp [Command.toInstr, Instr.wellFormed, argWords_length]
  | _ => rfl

theorem wellFormed_of_decodePayload {c : Cfg} {P : List Byte} {k : Command} (h : decodePayload c P = .ok k) :
    k.toInstr.wellFormed c = true := by
  unfold decodePayload at h
  split at h
  · cases h
  split at h
  case isTrue hcode => cases h; exact hcode
  case isFalse hcode =>
    split at h <;> cases h
    exact commandOf_wellFormed (by simpa using hcode) _

/-! #### The class of a raw byte, one equation for each class that a byte is tested for -/

theorem decodeWire_noise {b : Byte} (hb : b ≠ startMarkerByte) : decodeWire .waitForStart b = .ok (.noise b) := by
  simp [decodeWire, hb]

theorem decodeWire_data {b : Byte} (hb : b ≠ escapeMarkerByte) (hb' : b ≠ endMarkerByte) :
    decodeWire .readVerbatim b = .ok (.data b) := by
  simp [decodeWire, hb, hb']

/-- In every state but END_OF_MESSAGE a raw byte has a class, which is well-formed, of that state, and encoded as that
byte. -/
theorem decodeWire_total {p : PState} (hp : p ≠ .endOfMessage) (c : Cfg) (b : Byte) :
    ∃ i, decodeWire p b = .ok i ∧ i.wellFormed c = true ∧ i.context = .wire p ∧ encode i = [b] := by
  cases p with
  | waitForStart =>
    by_cases hb : b = startMarkerByte
    · subst hb
      exact ⟨.startMarker, rfl, rfl, rfl, rfl⟩
    · exact ⟨.noise b, decodeWire_noise hb, bne_iff_ne.2 hb, rfl, rfl⟩
  | readVerbatim =>
    by_cases hb : b = escapeMarkerByte
    · subst hb
      exact ⟨.escapeMarker, rfl, rfl, rfl, rfl⟩
    by_cases hb' : b = endMarkerByte
    · subst hb'
      exact ⟨.endMarker, rfl, rfl, rfl, rfl⟩
    · exact ⟨.data b, decodeWire_data hb hb', by simp [Instr.wellFormed, hb, hb'], rfl, rfl⟩
  | readEscaped => exact ⟨.escapedByte b, rfl, rfl, rfl, rfl⟩
  | endOfMessage => exact absurd rfl hp

theorem wellFormed_of_decodeWire {p : PState} {b : Byte} {i : Instr} (h : decodeWire p b = .ok i) (c : Cfg) :
    i.wellFormed c = true ∧ i.context = .wire p := by
  have hp : p ≠ .endOfMessage := by rintro rfl; cases h
  obtain ⟨j, hj, hwf, hctx, -⟩ := decodeWire_total hp c b
  obtain rfl : i = j := by simpa [h] using hj
  exact ⟨hwf, hctx⟩

/-- Settles O2: a payload decodes to a command with the words its code asks for, a raw byte to a class of its parser
state, and every state but END_OF_MESSAGE has a class for every byte. -/
theorem decodedInstructionIsWellFormed : Obligations.DecodedInstructionIsWellFormed := by
  refine ⟨fun c ctx bytes i h => ?_, fun c p b hp => ?_⟩
  · cases ctx with
    | wire p =>
      cases bytes with
      | nil => cases h
      | cons b _ => exact wellFormed_of_decodeWire h c
    | payload =>
      cases hk : decodePayload c bytes with
      | error r => simp [decode, hk, Except.map] at h
      | ok k =>
        obtain rfl : k.toInstr = i := by simpa [decode, hk, Except.map] using h
        exact ⟨wellFormed_of_decodePayload hk, k.toInstr_context⟩
  · obtain ⟨i, hi, -, -, henc⟩ := decodeWire_total hp c b
    exact ⟨i, hi, henc⟩

end Sys2Proof

/-! ### The wire classes that do not end a frame (R181, R182, R184 to R187) -/

namespace Sys2Proof.Machine

/-- Settles O26: the class is the decoder's, and neither rule touches anything else. -/
theorem waitForStartRule : Obligations.WaitForStartRule := by
  intro s b hp
  refine ⟨fun hb => ?_, fun hb => ?_, rfl, rfl⟩
  · rw [hp, hb]
    rfl
  · rw [hp]
    exact decodeWire_noise hb

/-- Settles O27: the class is the decoder's, and its rule is one write of `pstate`. -/
theorem escapeMarkerRule : Obligations.EscapeMarkerRule := by
  intro s hp
  exact ⟨by rw [hp]; rfl, rfl⟩

/-- A store below the guard: the byte at the cursor, the cursor advanced (R186). -/
theorem append_of_room {v : Byte} {s : State} (hi : s.i + 1 < s.cfg.cap) :
    append v s = .next { s with buf := s.buf.write s.i v, i := s.i + 1 } := append_eq_stored hi

/-- The store that fills the buffer wipes the receiver and records E3 (R186, R187, D11). -/
theorem append_of_full {v : Byte} {s : State} (hi : s.i + 1 = s.cfg.cap) :
    append v s = .next { s with
      buf := [], i := 0, pstate := .waitForStart, trace := s.trace ++ [.discard .overflow] } := by
  rcases append_cases v s with ⟨hcap, -⟩ | ⟨hroom, -⟩ | ⟨-, e⟩
  · omega
  · omega
  · exact e

/-- Settles O28: DATA is an append of the byte. -/
theorem dataByteRule : Obligations.DataByteRule := by
  intro s b hwf hcap
  refine ⟨fun hp hb hb' => ?_, fun hi => ⟨s.buf.write s.i b, Memory.wf_write hwf _ _, fun k => ?_, ?_⟩,
    append_of_full⟩
  · rw [hp]
    exact decodeWire_data hb hb'
  · exact Memory.read_write hwf _ _ _
  · exact append_of_room (by omega)

/-- Settles O29: ESCAPED_BYTE is an append of the byte XOR 0x20 in READ_VERBATIM. -/
theorem escapedByteRule : Obligations.EscapedByteRule := by
  intro s b hwf hcap
  refine ⟨fun hp => ?_, fun hi => ⟨s.buf.write s.i (b ^^^ escapeXor), Memory.wf_write hwf _ _, fun k => ?_, ?_⟩,
    append_of_full (s := s.withPState .readVerbatim)⟩
  · rw [hp]
    rfl
  · exact Memory.read_write hwf _ _ _
  · exact append_of_room (s := s.withPState .readVerbatim) (show s.i + 1 < s.cfg.cap by omega)

/-- What a byte that does not end its frame may change from `s` to `t`: the receiver and the trace, and of `Buf`
nothing, the byte at the cursor, or all of it in the wipe of the overflow guard. -/
def WireFrame (s t : State) : Prop :=
  t = { s with pstate := t.pstate, i := t.i, buf := t.buf, trace := t.trace } ∧
  ((t.i = s.i ∧ ∀ k, t.buf.read k = s.buf.read k) ∨
   (t.i = s.i + 1 ∧ ∀ k, k ≠ s.i → t.buf.read k = s.buf.read k) ∨
   (t.i = 0 ∧ s.i + 1 = s.cfg.cap ∧ t.pstate = .waitForStart ∧ ∀ k, t.buf.read k = 0#8))

/-- A change of the parser state or the trace only. -/
theorem WireFrame.of_buf_kept {s t : State} (ht : t = { s with pstate := t.pstate, trace := t.trace }) :
    WireFrame s t := by
  rw [ht]
  exact ⟨rfl, .inl ⟨rfl, fun _ => rfl⟩⟩

theorem WireFrame.of_append {v : Byte} {s t : State} (hwf : s.buf.wf = true) (h : append v s = .next t) :
    WireFrame s t := by
  rcases append_cases v s with ⟨-, e⟩ | ⟨-, e⟩ | ⟨hi, e⟩ <;> rw [e] at h <;> cases h
  · exact ⟨rfl, .inr (.inl ⟨rfl, fun k hk => (Memory.read_write hwf s.i k v).trans (if_neg hk)⟩)⟩
  · exact ⟨rfl, .inr (.inr ⟨rfl, hi, rfl, fun _ => rfl⟩)⟩

/-- Settles O52: three of the classes leave the buffer alone, the other two append to it. -/
theorem wireClassesFrame : Obligations.WireClassesFrame := by
  intro i b s t hwf hmem h
  simp only [List.mem_cons, List.not_mem_nil, or_false] at hmem
  rcases hmem with rfl | rfl | rfl | rfl | rfl
  · cases h; exact WireFrame.of_buf_kept rfl
  · cases h; exact WireFrame.of_buf_kept rfl
  · cases h; exact WireFrame.of_buf_kept rfl
  · exact WireFrame.of_append hwf h
  · exact WireFrame.of_append (s := s.withPState .readVerbatim) hwf h

/-- A receive step performs the instruction the byte decodes to (R180). -/
theorem recvByte_of_decode {b : Byte} {s : State} {i : Instr} (h : decode s.cfg (.wire s.pstate) [b] = .ok i) :
    recvByte b s = exec i (s.emit (.rx b)) := by
  simp [recvByte, h]

/-- Settles O53: the drain receives the byte RX answers with. -/
theorem stepRunsTheDecodedInstruction : Obligations.StepRunsTheDecodedInstruction := by
  intro s b l i hlegal hmode hphase hrx hdec
  rw [step_of_rx ⟨hlegal, hmode, hphase⟩ hrx]
  exact recvByte_of_decode (s := s.withRx l) hdec

end Sys2Proof.Machine

/-! ### The end of a frame (R183, R188 to R191) -/

namespace Sys2Proof.Machine

/-- The checksum is computed over the payload (R188, R142). -/
theorem cksumOk_iff (s : State) : cksumOk s = true ↔ compute (payload s) (s.i - 2) = receivedChecksum s := by
  have htake : (buffered s s.i).take (s.i - 2) = (payload s).take (s.i - 2) := by
    simp [payload, buffered, ← List.map_take, List.take_range]
  rw [cksumOk, beq_iff_eq, compute, htake, compute]

theorem dispatch_of_error {P : List Byte} {s : State} {r : Reject} (h : decodePayload s.cfg P = .error r) :
    dispatch P s = .next (dropPayload r s) := by
  simp [dispatch, h]

theorem dispatch_of_ok {P : List Byte} {s : State} {k : Command} (h : decodePayload s.cfg P = .ok k) :
    dispatch P s = exec k.toInstr s := by
  simp [dispatch, h, perform_eq_exec]

theorem judgeFrame_of_short {s : State} (hi : s.i < 2) :
    judgeFrame s = .next (s.emit (.discard (.shortFrame s.i))) := if_pos hi

theorem judgeFrame_of_mismatch {s : State} (hi : 2 ≤ s.i) (hc : cksumOk s = false) :
    judgeFrame s = .next (s.emit (.discard .checksumMismatch)) := by
  simp [judgeFrame, Nat.not_lt.2 hi, hc, raiseDiscard_eq]

/-- What an end marker does when its frame's verdict leaves the block in BOOT_WAIT: the verdict, then the wipe (R188,
R191). -/
theorem execEndMarker_of_judgeFrame {s u : State} (hcap : s.i ≤ s.cfg.cap)
    (h : judgeFrame (s.withPState .endOfMessage) = .next u) (hu : u.mode = .bootWait) :
    execEndMarker s = .next (wipe u) := by
  have hend : execEndMarker s = andThen (judgeFrame (s.withPState .endOfMessage)) finishFrame := if_pos hcap
  rw [hend, h, andThen_next, finishFrame_eq, if_pos hu]

/-- Settles O30: the verdict records its cause only, and the wipe follows. -/
theorem undispatchedFrameRule : Obligations.UndispatchedFrameRule := by
  intro s hmode hcap
  refine ⟨fun hi => ?_, fun hi hne => ?_⟩
  · exact execEndMarker_of_judgeFrame hcap (judgeFrame_of_short (s := s.withPState .endOfMessage) hi) hmode
  · have hc : cksumOk (s.withPState .endOfMessage) = false :=
      Bool.eq_false_iff.2 fun hc => hne ((cksumOk_iff _).1 hc)
    exact execEndMarker_of_judgeFrame hcap (judgeFrame_of_mismatch (s := s.withPState .endOfMessage) hi hc) hmode

section
variable {s : State} (hmode : s.mode = .bootWait) (hcap : s.i ≤ s.cfg.cap) (hi : 2 ≤ s.i) (hc : cksumOk s = true)
include hcap hi hc

include hmode in
/-- A verified payload that is no command is dropped after the liveness pulse, and the receiver wiped (R211, R213). -/
theorem execEndMarker_of_reject {r : Reject} {d : DiscardReason} (hr : decodePayload s.cfg (payload s) = .error r)
    (hd : rejectReason r = some d) :
    execEndMarker s = .next (wipe ((s.withPState .endOfMessage).emitAll [.live, .discard d])) := by
  rw [execEndMarker_of_verified hcap hi hc, dispatch_of_error (s := (s.withPState .endOfMessage).emit .live) hr]
  simp [dropPayload, hd, raiseDiscard_eq, finishFrame_eq, hmode, emit_eq_emitAll, emitAll_emitAll]

/-- A verified command that completes is performed after the liveness pulse (R190, R210). -/
theorem execEndMarker_of_command {k : Command} {t : State} (hk : decodePayload s.cfg (payload s) = .ok k)
    (ht : exec k.toInstr ((s.withPState .endOfMessage).emit .live) = .next t) :
    execEndMarker s = .next (if t.mode = .bootWait then wipe t else t) := by
  rw [execEndMarker_of_verified hcap hi hc, dispatch_of_ok (s := (s.withPState .endOfMessage).emit .live) hk, ht,
    andThen_next, finishFrame_eq]

end

/-- Settles O31, by the three answers of the dispatcher on the payload. -/
theorem verifiedFrameRule : Obligations.VerifiedFrameRule := by
  intro s hmode hcap hi hsum
  have hc : cksumOk s = true := (cksumOk_iff s).2 hsum
  exact ⟨fun n hn => execEndMarker_of_reject hmode hcap hi hc hn rfl,
    fun code n hn => execEndMarker_of_reject hmode hcap hi hc hn rfl,
    fun k t hk ht => execEndMarker_of_command hcap hi hc hk ht⟩

/-- A frame that ends with the block out of BOOT_WAIT carried START_APP (R191, R249). -/
theorem FrameVerdict.startApp_of_ne_bootWait {s u : State} {es : List Event} (h : FrameVerdict s u es)
    (hm : s.mode = .bootWait) (hu : u.mode ≠ .bootWait) : decodePayload s.cfg (payload s) = .ok .startApp := by
  cases h with
  | unverified _ _ _ hu' | dropped _ _ _ _ _ hu' => subst hu'; exact absurd hm hu
  | performed k _ _ _ _ hk _ he =>
    by_cases hstart : k = .startApp
    · rwa [hstart] at hk
    · have hmode := congrArg State.mode he.frame
      simp only [hstart, if_false] at hmode
      exact absurd (hmode.trans hm) hu

/-- An operation of `s` completes, or is stuck on a sink that does not accept every byte (R164). -/
def NextOrSinkBlocked (s : State) (o : Result) : Prop :=
  (∃ t, o = .next t) ∨ (s.txAccepts ≠ none ∧ ∃ tr, o = .fault (.sinkBlocked tr))

theorem execEndMarker_nextOrSinkBlocked {s : State} (hi : s.i ≤ s.cfg.cap) :
    NextOrSinkBlocked s (execEndMarker s) := by
  rcases execEndMarker_cases s with ⟨hcap, -⟩ | ⟨-, hbound, tr, e⟩ | ⟨-, u, es, -, e⟩
  · omega
  · exact .inr ⟨hbound, tr, e⟩
  · exact .inl ⟨_, e⟩

/-- Settles O32: only the sink can stop an end marker; a verdict that stays in BOOT_WAIT is wiped, one that leaves it
is START_APP's, which keeps the receiver. -/
theorem endOfFrameWipes : Obligations.EndOfFrameWipes := by
  refine ⟨fun s hcap hsink => ?_, fun s t hmode h => ?_⟩
  · rcases execEndMarker_nextOrSinkBlocked hcap with hnext | ⟨hbound, -⟩
    · exact hnext
    · exact absurd hsink hbound
  · change execEndMarker s = .next t at h
    rcases execEndMarker_cases s with ⟨-, e⟩ | ⟨-, -, tr, e⟩ | ⟨-, u, es, hv, e⟩ <;> rw [e] at h <;> cases h
    split
    case isTrue hu => exact .inl ⟨hu, rfl, rfl, fun _ => rfl⟩
    case isFalse hu =>
      exact .inr ⟨hv.runApplication_of_ne_bootWait hmode hu, (congrArg State.pstate hv.frame :),
        (congrArg State.i hv.frame :), (congrArg State.buf hv.frame :), hv.startApp_of_ne_bootWait hmode hu⟩

end Sys2Proof.Machine

/-! ### The only stop of a running receiver is its sink (R180, R186, R194) -/

namespace Sys2Proof.Machine

theorem append_completes {v : Byte} {s : State} (hi : s.i < s.cfg.cap) : ∃ t, append v s = .next t := by
  rcases append_cases v s with ⟨hcap, -⟩ | ⟨-, e⟩ | ⟨-, e⟩
  · omega
  · exact ⟨_, e⟩
  · exact ⟨_, e⟩

/-- A byte taken by a receiver that meets R46 meets neither guard fault. -/
theorem recvByte_nextOrSinkBlocked {s : State} (hs : ReceiverOk s) (b : Byte) :
    NextOrSinkBlocked s (recvByte b s) := by
  have hr := recvByte_rule b s
  generalize recvByte b s = o at hr
  cases hr with
  | atEnd hp => exact absurd hp hs.notEnd
  | start | noise | escape => exact .inl ⟨_, rfl⟩
  | ending => exact execEndMarker_nextOrSinkBlocked (s := s.emit (.rx b)) hs.cursor.le
  | data => exact .inl (append_completes (s := s.emit (.rx b)) hs.cursor)
  | escaped => exact .inl (append_completes (s := (s.emit (.rx b)).withPState .readVerbatim) hs.cursor)

theorem loopPart_nextOrSinkBlocked {s : State} (hs : ReceiverOk s) : NextOrSinkBlocked s (loopPart s) := by
  unfold loopPart
  split
  · exact .inl ⟨_, rfl⟩
  · unfold drainPart
    rcases pollRx_cases s with ⟨-, e⟩ | ⟨x, l, -, e⟩ <;> rw [e]
    · exact .inl ⟨_, rfl⟩
    · cases x with
      | none => exact .inl ⟨_, rfl⟩
      | some b => exact recvByte_nextOrSinkBlocked (hs.congr (t := s.withRx l) rfl rfl rfl rfl) b
  · unfold pollPart
    split <;> exact .inl ⟨_, rfl⟩

/-- Every stop of a legally configured block in a state of the invariant: the block has left, or its sink refuses. -/
theorem stepMode_stops {s : State} (hs : Inv s) :
    NextOrSinkBlocked s (stepMode s) ∨ s.mode = .runApplication ∧ stepMode s = .fault .terminated := by
  unfold stepMode
  split
  case h_1 =>
    unfold startupDecision
    split <;> exact .inl (.inl ⟨_, rfl⟩)
  case h_2 hm => exact .inl (loopPart_nextOrSinkBlocked (hs.receiver (by simp [hm])))
  case h_3 hm => exact .inr ⟨hm, rfl⟩

/-- Settles O37: neither guard fault is among the stops. -/
theorem bufferNeverOverrun : Obligations.BufferNeverOverrun := by
  intro s hs
  by_cases hl : s.cfg.Legal
  · rw [step_of_legal hl]
    rcases stepMode_stops hs with (⟨t, e⟩ | ⟨-, tr, e⟩) | ⟨-, e⟩ <;> simp [e]
  · simp [step_of_illegal hl]

end Sys2Proof.Machine

/-! ### The replies of the queries and the reads (R215 to R223, R245, R246) -/

namespace Sys2Proof.Machine

/-- Settles O9: each of the two is one reply frame, which the sink accepts. -/
theorem programSizeQueriesReply : Obligations.ProgramSizeQueriesReply :=
  fun _ => ⟨sendFrame_of_accepts, sendFrame_of_accepts⟩

/-- Settles O10: each of the six is one reply frame, which the sink accepts. -/
theorem configurationQueriesReply : Obligations.ConfigurationQueriesReply :=
  fun _ => ⟨sendFrame_of_accepts, sendFrame_of_accepts, sendFrame_of_accepts, sendFrame_of_accepts,
    sendFrame_of_accepts, sendFrame_of_accepts⟩

/-- A reply that completes has done what `replied` says. -/
theorem eq_replied_of_sendFrame {cmd : Byte} {data : List Byte} {s t : State} (h : sendFrame cmd data s = .next t) :
    t = replied cmd data s := by
  rcases sendFrame_cases cmd data s with ⟨-, e⟩ | ⟨n, -, -, e⟩ <;> rw [e] at h <;> cases h
  rfl

/-- The sums after a sequence depend on the sums before it and on nothing else of the state. -/
theorem accumulateAll_sums_congr (l : List Byte) {s t : State} (h1 : t.sum1 = s.sum1) (h2 : t.sum2 = s.sum2) :
    (accumulateAll l t).sum1 = (accumulateAll l s).sum1 ∧ (accumulateAll l t).sum2 = (accumulateAll l s).sum2 := by
  induction l generalizing s t with
  | nil => exact ⟨h1, h2⟩
  | cons b l ih => exact ih (by simp [accumulate, h1]) (by simp [accumulate, h1, h2])

/-- Settles O11: a query's data come from the configuration, which a reply keeps, and the sums start from zero in each
frame. -/
theorem informationalCommandsIdempotent : Obligations.InformationalCommandsIdempotent := by
  intro s t u q hq ht hu
  obtain rfl := eq_replied_of_sendFrame ((exec_query hq).symm.trans ht)
  have hq' : q ∈ queryReplies (replied q.2.1 q.2.2 s).cfg := hq
  obtain rfl := eq_replied_of_sendFrame ((exec_query hq').symm.trans hu)
  obtain ⟨hsum1, hsum2⟩ := accumulateAll_sums_congr (withChecksum (logicalBody q.2.1 q.2.2))
    (s := s.withSums 0#8 0#8) (t := (replied q.2.1 q.2.2 s).withSums 0#8 0#8) rfl rfl
  exact ⟨rfl, rfl, hsum1, hsum2, rfl⟩

/-- A replying command makes its reads `es`, which change no word of flash, and is one reply frame from there; a query
makes no read. -/
theorem exec_replying {i : Instr} {a : Addr} (s : State)
    (hi : i ∈ [Instr.readPlatform, .readVersion, .readRowLen, .readPageLen, .readProgLen, .readMaxProgSize,
      .readAppStartAddr, .readBootStartAddr, .readAddr a, .readMax a]) :
    ∃ cmd data es f, exec i s = sendFrame cmd data ((s.emitAll es).withFlash f) ∧
      (∀ b, f.wordAt b = s.flash.wordAt b) ∧ (i ≠ .readAddr a → i ≠ .readMax a → f = s.flash) := by
  have hi' : i ∈ (queryReplies s.cfg).map Prod.fst ++ [.readAddr a, .readMax a] := hi
  simp only [List.mem_append, List.mem_map, List.mem_cons, List.not_mem_nil, or_false] at hi'
  rcases hi' with ⟨q, hq, rfl⟩ | rfl | rfl
  · have hself : (s.emitAll []).withFlash s.flash = s := by simp [State.emitAll, State.withFlash]
    exact ⟨q.2.1, q.2.2, [], s.flash, by rw [hself, exec_query hq], fun _ => rfl, fun _ _ => rfl⟩
  · exact ⟨_, _, [.readWord a (s.flash.read a).1], (s.flash.read a).2, rfl, FlashAgent.wordAt_read s.flash a,
      fun h => absurd rfl h⟩
  · obtain ⟨-, hread, hword, -⟩ := flashReadWords_spec (spanAddrs a s.cfg.maxProgSize) s
    exact ⟨_, _, _, _, congrArg (sendFrame _ _) hread, hword, fun _ h => absurd rfl h⟩

/-- Settles O50: neither the reads nor the reply frame write what the statement lists, and the reads change no word. -/
theorem replyingCommandsFrame : Obligations.ReplyingCommandsFrame := by
  intro i a s t hi h
  obtain ⟨cmd, data, es, f, hexec, hword, hquery⟩ := exec_replying s hi
  obtain rfl := eq_replied_of_sendFrame (hexec.symm.trans h)
  exact ⟨rfl, rfl, rfl, rfl, fun _ => rfl, rfl, rfl, rfl, rfl, hword, hquery⟩

end Sys2Proof.Machine

/-! ### The validator and the three flash-writing commands: one equation for each verdict (R240 to R242, R244, R247,
R248) -/

namespace Sys2Proof.Machine

theorem inBoot_iff {c : Cfg} {a : Addr} : inBoot c a = true ↔ c.bootBase ≤ a ∧ a < c.bootEnd := by
  simp [inBoot]

theorem inBoot_eq_false_iff {c : Cfg} {a : Addr} : inBoot c a = false ↔ ¬ (c.bootBase ≤ a ∧ a < c.bootEnd) := by
  rw [← inBoot_iff, Bool.not_eq_true]

theorem belowIvt_iff {c : Cfg} {a : Addr} : belowIvt c a = true ↔ a < c.ivtBase := by
  simp [belowIvt]

theorem belowIvt_eq_false_iff {c : Cfg} {a : Addr} : belowIvt c a = false ↔ c.ivtBase ≤ a := by
  rw [← Bool.not_eq_true, belowIvt_iff, BitVec.not_lt]

section
variable {a : Addr} {ws : List Word} {s : State}

theorem exec_erasePage_of_inBoot (h : inBoot s.cfg a = true) :
    exec (.erasePage a) s = .next (s.emit (.discard (.protection a))) := if_pos h

theorem exec_erasePage_of_ne_zero (h : inBoot s.cfg a = false) (h0 : a ≠ 0#32) :
    exec (.erasePage a) s =
      .next ((s.emit (.erasePage a)).withFlash (s.flash.erasePage s.cfg.pageSize a)) := by
  simp [exec, execErasePage, h, h0, flashErasePage]

theorem exec_erasePage_zero (h : inBoot s.cfg 0#32 = false) :
    exec (.erasePage 0#32) s =
      .next ((s.emitAll [.erasePage 0#32, .writeDoubleWord 0#32 s.cfg.jump0 s.cfg.jump1]).withFlash
        ((s.flash.erasePage s.cfg.pageSize 0#32).writeWords 0#32 [s.cfg.jump0, s.cfg.jump1])) := by
  simp [exec, execErasePage, h, flashErasePage, flashWriteDouble, State.emit, State.emitAll, State.withFlash]

theorem exec_writeRow_of_rejected (h : inBoot s.cfg a = true ∨ belowIvt s.cfg a = true) :
    exec (.writeRow a ws) s = .next (s.emit (.discard (.protection a))) := if_pos (Bool.or_eq_true_iff.2 h)

theorem exec_writeRow_of_accepted (h : inBoot s.cfg a = false) (hivt : belowIvt s.cfg a = false) :
    exec (.writeRow a ws) s = .next ((s.emit (.writeRow a ws)).withFlash (s.flash.writeWords a ws)) := by
  simp [exec, execWriteRow, h, hivt, flashWriteRow]

theorem exec_writeMaxProgSize_of_inBoot (h : inBoot s.cfg a = true) :
    exec (.writeMaxProgSize a ws) s = .next (s.emit (.discard (.protection a))) := if_pos h

theorem exec_writeMaxProgSize_of_accepted (h : inBoot s.cfg a = false) :
    exec (.writeMaxProgSize a ws) s = .next
      ((s.emitAll ((bulkRows s.cfg a (forceJumpPair s.cfg a ws)).map fun r => .writeRow r.1 r.2)).withFlash
        ((bulkRows s.cfg a (forceJumpPair s.cfg a ws)).foldl (fun f r => f.writeWords r.1 r.2) s.flash)) := by
  rw [← flashWriteRows_spec]
  simp [exec, execWriteMaxProgSize, h]

/-- In the boot region the three commands only record E4 (R242, R250). -/
theorem exec_of_inBoot {i : Instr} (hi : i ∈ [Instr.erasePage a, .writeRow a ws, .writeMaxProgSize a ws])
    (h : inBoot s.cfg a = true) : exec i s = .next (s.emit (.discard (.protection a))) := by
  simp only [List.mem_cons, List.not_mem_nil, or_false] at hi
  rcases hi with rfl | rfl | rfl
  · exact exec_erasePage_of_inBoot h
  · exact exec_writeRow_of_rejected (.inl h)
  · exact exec_writeMaxProgSize_of_inBoot h

end

/-- A discard is on no port (R42, D33). -/
theorem portTrace_emit_discard (r : DiscardReason) (s : State) : portTrace (s.emit (.discard r)) = portTrace s := by
  simp [portTrace, Event.onPort]

/-- Settles O22: a rejected command does nothing but record its cause. -/
theorem bootRegionCommandsAreSilent : Obligations.BootRegionCommandsAreSilent := by
  intro i a ws s hbase hend hi
  exact ⟨_, exec_of_inBoot hi (inBoot_iff.2 ⟨hbase, hend⟩), portTrace_emit_discard _ s, rfl, rfl⟩

/-- Settles O23: below `IVT_BASE` a row is rejected whatever the boot region. -/
theorem rowsBelowIvtAreSilent : Obligations.RowsBelowIvtAreSilent := by
  intro a ws s hivt
  exact ⟨_, exec_writeRow_of_rejected (.inr (belowIvt_iff.2 hivt)), portTrace_emit_discard _ s, rfl⟩

end Sys2Proof.Machine

/-! ### The arguments, the verdicts and the requests of the flash commands (R110, R213, R242 to R249) -/

namespace Sys2Proof

/-- The decoder on a known code: dropped when the arguments are short, else the command (R213, D14). -/
theorem decodePayload_of_known {c : Cfg} {lo hi code : Byte} {A : List Byte} (hcode : code ∈ commandCodes) :
    decodePayload c (lo :: hi :: code :: A) =
      if A.length < req c code then .error (.shortArgs code A.length) else .ok (commandOf c code A) := by
  split
  case isTrue hA => exact decodePayload_shortArgs hcode hA
  case isFalse hA => exact decodePayload_known hcode (Nat.not_lt.1 hA)

end Sys2Proof

namespace Sys2Proof.Machine

/-- Settles O13: one equation of ERASE_PAGE for each clause. -/
theorem erasePageEffect : Obligations.ErasePageEffect := by
  intro a s
  refine ⟨fun lo hi A hA => decodePayload_known (by decide) hA,
    fun hboot => exec_erasePage_of_inBoot (inBoot_iff.2 hboot),
    fun hboot h0 => ⟨_, exec_erasePage_of_ne_zero (inBoot_eq_false_iff.2 hboot) h0⟩, fun hboot h0 => ?_⟩
  subst h0
  exact ⟨_, exec_erasePage_zero (inBoot_eq_false_iff.2 hboot)⟩

/-- Settles O16: one equation of WRITE_ROW for each clause. -/
theorem writeRowEffect : Obligations.WriteRowEffect := by
  intro a ws s
  exact ⟨fun lo hi A => decodePayload_of_known (by decide),
    fun hrej => exec_writeRow_of_rejected (hrej.imp inBoot_iff.2 belowIvt_iff.2),
    fun hboot hivt => ⟨_, exec_writeRow_of_accepted (inBoot_eq_false_iff.2 hboot) (belowIvt_eq_false_iff.2 hivt)⟩⟩

theorem forceJumpPair_zero (c : Cfg) (ws : List Word) :
    forceJumpPair c 0#32 ws = [c.jump0, c.jump1] ++ ws.drop 2 := rfl

theorem forceJumpPair_of_ne_zero {a : Addr} (h0 : a ≠ 0#32) (c : Cfg) (ws : List Word) :
    forceJumpPair c a ws = ws := if_neg h0

/-- Settles O18: one equation of WRITE_MAX_PROG_SIZE for each clause. -/
theorem writeMaxProgSizeEffect : Obligations.WriteMaxProgSizeEffect := by
  intro a ws s _
  refine ⟨fun lo hi A => decodePayload_of_known (by decide),
    fun hboot => exec_writeMaxProgSize_of_inBoot (inBoot_iff.2 hboot),
    fun hboot => ⟨forceJumpPair s.cfg a ws, bulkRows s.cfg a (forceJumpPair s.cfg a ws), ?_,
      fun h0 => forceJumpPair_of_ne_zero h0 _ _, ?_,
      exec_writeMaxProgSize_of_accepted (inBoot_eq_false_iff.2 hboot)⟩⟩
  · rintro rfl
    exact forceJumpPair_zero _ _
  · simp only [bulkRows, spanAddr_eq]

/-- Settles O20: at the end marker of its frame the jump follows the liveness pulse, and the block, no longer in
BOOT_WAIT, is not wiped and steps no more. -/
theorem startAppEffect : Obligations.StartAppEffect := by
  intro s
  refine ⟨fun lo hi A => decodePayload_known (by decide) (Nat.zero_le _), rfl, fun hlegal hi hcap hc hk => ?_⟩
  have hend : exec .endMarker s = .next (jumpApp ((s.withPState .endOfMessage).emit .live)) :=
    execEndMarker_of_command hcap hi hc hk rfl
  have hstop : step (jumpApp ((s.withPState .endOfMessage).emit .live)) = .fault .terminated :=
    step_of_legal (s := jumpApp ((s.withPState .endOfMessage).emit .live)) hlegal
  refine ⟨_, hend, by simp [hstop], ?_⟩
  simp [jumpApp, State.emit, State.withMode, State.withPState]

end Sys2Proof.Machine

/-! ### No step makes an erase request in the boot region (R242, R250) -/

namespace Sys2Proof.Machine

/-- Events whose erase requests lie outside the boot region keep the trace free of one inside it. -/
theorem ErasesOutsideBoot.append {s t : State} {es : List Event} (h : ErasesOutsideBoot s) (hc : t.cfg = s.cfg)
    (ht : t.trace = s.trace ++ es) (hes : ∀ a, Event.erasePage a ∈ es → inBoot s.cfg a = false) :
    ErasesOutsideBoot t := by
  intro a ha
  rw [hc]
  rw [ht, List.mem_append] at ha
  exact ha.elim (h a) (hes a)

theorem ErasesOutsideBoot.emit {s : State} {e : Event} (h : ErasesOutsideBoot s) (he : ∀ a, e ≠ .erasePage a) :
    ErasesOutsideBoot (s.emit e) :=
  h.append rfl rfl fun a ha => absurd (List.mem_singleton.1 ha).symm (he a)

theorem FrameVerdict.erases {s u : State} {es : List Event} (h : FrameVerdict s u es) :
    ∀ a, Event.erasePage a ∈ es → inBoot s.cfg a = false := by
  cases h with
  | unverified r _ hes _ => simp [hes]
  | dropped r _ hes _ _ _ => simp [hes]
  | performed k es' hes _ _ _ _ he =>
    intro a ha
    exact he.erases a (by simpa [hes] using ha)

theorem Received.erasesOutsideBoot {b : Byte} {s t : State} (h : Received b s t) (hs : ErasesOutsideBoot s) :
    ErasesOutsideBoot t := by
  have hrx : ErasesOutsideBoot (s.emit (.rx b)) := hs.emit nofun
  cases h with
  | start _ _ ht | escape _ _ ht | stored _ _ _ ht => subst ht; exact hrx
  | noise _ _ ht => subst ht; exact hrx.emit nofun
  | overflowed _ _ _ ht => subst ht; exact ErasesOutsideBoot.emit (s := wipe (s.emit (.rx b))) hrx nofun
  | ended u es _ _ _ hv ht =>
    have hu : ErasesOutsideBoot u :=
      hrx.append (congrArg State.cfg hv.frame :) (congrArg State.trace hv.frame :) hv.erases
    subst ht
    split <;> exact hu

/-- Settles O25: only a command performed at the end of a frame makes requests, and its erases passed the validator. -/
theorem stepKeepsErasesOutsideBoot : Obligations.StepKeepsErasesOutsideBoot := by
  intro s t hs h
  obtain ⟨-, hcases⟩ := step_next_cases h
  rcases hcases with ⟨-, -, rfl⟩ | ⟨-, -, rfl⟩ | ⟨-, -, rfl⟩ | ⟨-, -, -, rfl⟩ | ⟨l, -, -, -, rfl⟩ |
    ⟨b, l, -, -, -, hrecv⟩ | ⟨-, -, -, rfl⟩ | ⟨l, -, -, -, rfl⟩ | ⟨l, -, -, -, rfl⟩
  · exact hs.emit (e := .enter true) nofun
  · exact (hs.emit (e := .enter false) nofun).emit (e := .jumpToApplication s.cfg.appStartAddr) nofun
  · exact hs.emit (e := .wdt) nofun
  · exact hs
  · exact hs
  · exact (received_of_recvByte hrecv).erasesOutsideBoot hs
  · exact hs.emit (e := .abort false) nofun
  · exact hs.emit (e := .abort false) nofun
  · exact (hs.emit (e := .abort true) nofun).emit (e := .jumpToApplication s.cfg.appStartAddr) nofun

end Sys2Proof.Machine

/-! ### The replies of the flash reads (R245, R246) -/

namespace Sys2Proof

theorem esc_length_le (b : Byte) : (esc b).length ≤ 2 := by
  rcases esc_cases b with ⟨e, -⟩ | ⟨x, e, -⟩ <;> simp [e]

/-- Escaping at most doubles. -/
theorem length_flatMap_esc_le (l : List Byte) : (l.flatMap esc).length ≤ 2 * l.length := by
  induction l with
  | nil => rfl
  | cons b l ih =>
    have := esc_length_le b
    rw [List.flatMap_cons, List.length_append, List.length_cons]
    omega

/-- The longest a raw frame can be: every byte between its markers escaped. -/
theorem length_rawFrame_le (cmd : Byte) (data : List Byte) : (rawFrame cmd data).length ≤ 2 * data.length + 12 := by
  have hesc := length_flatMap_esc_le (withChecksum (logicalBody cmd data))
  rw [withChecksum_length, logicalBody_length] at hesc
  rw [rawFrame, frameOfBody, List.length_append, List.length_append, List.length_singleton, List.length_singleton]
  omega

end Sys2Proof

namespace Sys2Proof.Machine

/-- Settles O14: one read, then one reply frame, which the sink accepts. -/
theorem readAddrReplies : Obligations.ReadAddrReplies := by
  intro a s
  exact ⟨fun lo hi A => decodePayload_of_known (by decide),
    fun hsink => sendFrame_of_accepts (s := (flashReadWord a s).2) hsink⟩

/-- Where a flash model says what a word is, a sequence of reads answers it: the reads before change no word (R79). -/
theorem flashReadWords_getElem? {as : List Addr} {s : State} {k : Nat} {a : Addr} {w : Word} (ha : as[k]? = some a)
    (hw : s.flash.wordAt a = some w) : (flashReadWords as s).1[k]? = some w := by
  induction as generalizing s k with
  | nil => simp at ha
  | cons a' as ih =>
    cases k with
    | zero =>
      obtain rfl : a' = a := by simpa using ha
      exact congrArg some (FlashAgent.read_eq_wordAt hw)
    | succ k => exact ih (by simpa using ha) ((FlashAgent.wordAt_read s.flash a' a).trans hw)

/-- READ_MAX makes its reads, which change no word, and is one reply frame from there. -/
theorem exec_readMax_eq_sendFrame (a : Addr) (s : State) : ∃ (ws : List Word) (f : FlashAgent),
    ws.length = s.cfg.maxProgSize ∧
    (∀ b, f.wordAt b = s.flash.wordAt b) ∧
    (∀ k w, k < s.cfg.maxProgSize → s.flash.wordAt (a + BitVec.ofNat 32 (2 * k)) = some w → ws[k]? = some w) ∧
    exec (.readMax a) s = sendFrame 0x21#8 (bytes32 a ++ wordBytes ws)
      { s with
        trace := s.trace ++ (List.range s.cfg.maxProgSize).map
          (fun k => .readWord (a + BitVec.ofNat 32 (2 * k)) (ws.getD k 0#32))
        flash := f } := by
  obtain ⟨hcount, hafter, hword, -⟩ := flashReadWords_spec (spanAddrs a s.cfg.maxProgSize) s
  have hlen : (flashReadWords (spanAddrs a s.cfg.maxProgSize) s).1.length = s.cfg.maxProgSize := by
    simpa [spanAddrs] using hcount
  refine ⟨_, _, hlen, hword, fun k w hk hw => flashReadWords_getElem? ?_ hw, ?_⟩
  · simp [spanAddrs, hk, spanAddr_eq]
  · rw [← zipWith_readWord_spanAddrs a hlen]
    exact congrArg (sendFrame _ _) hafter

/-- Settles O15: the frame that carries the words read is within the bound the sink accepts. -/
theorem readMaxReplies : Obligations.ReadMaxReplies := by
  intro a s hsink
  obtain ⟨ws, f, hlen, hword, hread, hexec⟩ := exec_readMax_eq_sendFrame a s
  refine ⟨ws, f, hlen, hword, hread, hexec.trans (sendFrame_of_accepts fun m hm => ?_)⟩
  have hroom := hsink m hm
  have hframe := length_rawFrame_le 0x21#8 (bytes32 a ++ wordBytes ws)
  rw [List.length_append, bytes32_length, wordBytes_length, hlen] at hframe
  omega

end Sys2Proof.Machine

/-! ### The words of flash after writes and erases (R72, D8, D19) -/

namespace Sys2Proof.Machine

@[simp] theorem spanAddr_zero (a : Addr) : spanAddr a 0 = a := by
  simp [spanAddr]

theorem spanAddr_spanAddr (a : Addr) (j k : Nat) : spanAddr (spanAddr a j) k = spanAddr a (j + k) := by
  rw [spanAddr, spanAddr, spanAddr, BitVec.add_assoc, ← BitVec.ofNat_add, Nat.add_mul]

/-- A span of at most 2^31 words does not come back to its first address (D8). -/
theorem spanAddr_ne_self {k : Nat} (hk : 0 < k) (hk' : k < 2 ^ 31) (a : Addr) : spanAddr a k ≠ a := by
  rw [spanAddr_eq, ← BitVec.toNat_inj.ne, BitVec.toNat_add, BitVec.toNat_ofNat]
  have := a.isLt
  omega

namespace FlashAgent

theorem writeWords_append (f : FlashAgent) (a : Addr) (vs ws : List Word) :
    f.writeWords a (vs ++ ws) = (f.writeWords a vs).writeWords (spanAddr a vs.length) ws := by
  induction vs generalizing f a with
  | nil => simp [writeWords]
  | cons v vs ih =>
    rw [List.cons_append, writeWords, writeWords, ih, spanAddr_spanAddr, List.length_cons, Nat.add_comm 1]

/-- A write of words changes no word outside its span. -/
theorem wordAt_writeWords_of_ne {f : FlashAgent} (hwf : f.wf = true) {a b : Addr} {ws : List Word}
    (hb : ∀ k < ws.length, b ≠ spanAddr a k) : (f.writeWords a ws).wordAt b = f.wordAt b := by
  induction ws generalizing f a with
  | nil => rfl
  | cons w ws ih =>
    have hne : b ≠ a := by simpa using hb 0 (Nat.succ_pos _)
    have hrest : ∀ k < ws.length, b ≠ spanAddr (spanAddr a 1) k := fun k hk => by
      rw [spanAddr_spanAddr, Nat.add_comm 1]
      exact hb (k + 1) (Nat.succ_lt_succ hk)
    rw [writeWords, ih (wf_writeWord hwf a w) hrest, wordAt_writeWord hwf]
    simp [hne]

/-- A write of words leaves each at its address, where a flash model holds words at all. -/
theorem wordAt_writeWords_spanAddr {f : FlashAgent} (hwf : f.wf = true) {a : Addr} {ws : List Word}
    (hlen : ws.length ≤ 2 ^ 31) {k : Nat} (hk : k < ws.length) :
    (f.writeWords a ws).wordAt (spanAddr a k) = (f.wordAt (spanAddr a k)).map fun _ => ws[k] := by
  induction ws generalizing f a k with
  | nil => cases hk
  | cons w ws ih =>
    rw [List.length_cons] at hlen hk
    rw [writeWords]
    cases k with
    | zero =>
      have hrest : ∀ j < ws.length, a ≠ spanAddr (spanAddr a 1) j := fun j hj => by
        rw [spanAddr_spanAddr]
        exact (spanAddr_ne_self (by omega) (by omega) a).symm
      rw [spanAddr_zero, wordAt_writeWords_of_ne (wf_writeWord hwf a w) hrest, wordAt_writeWord hwf]
      simp
    | succ k =>
      have hnext : spanAddr a (k + 1) = spanAddr (spanAddr a 1) k := by rw [spanAddr_spanAddr, Nat.add_comm]
      rw [hnext, ih (wf_writeWord hwf a w) (by omega) (by omega), wordAt_writeWord hwf, Option.map_map]
      rfl

/-- The jump pair re-written at address 0 (D9, R244). -/
theorem wordAt_writeWords_pair_zero {f : FlashAgent} (hwf : f.wf = true) (x y : Word) (b : Addr) :
    (f.writeWords 0#32 [x, y]).wordAt b =
      (f.wordAt b).map fun old => if b = 0#32 then x else if b = 2#32 then y else old := by
  have hwf' := wf_writeWord hwf 0#32 x
  rw [writeWords, writeWords, writeWords, show spanAddr 0#32 1 = 2#32 from rfl, wordAt_writeWord hwf',
    wordAt_writeWord hwf, Option.map_map]
  congr 1
  funext old
  by_cases h0 : b = 0#32
  · simp [h0]
  · simp [h0]

/-- A page erase changes no word outside the page (D19). -/
theorem wordAt_erasePage_of_outside {f : FlashAgent} (hwf : f.wf = true) {n : Nat} {a b : Addr}
    (hb : ¬ (a.toNat - a.toNat % (n * 2) ≤ b.toNat ∧ b.toNat < a.toNat - a.toNat % (n * 2) + n * 2)) :
    (f.erasePage n a).wordAt b = f.wordAt b := by
  cases f with
  | oracle r => rfl
  | reference d m => exact (wordAt_erasePage_reference hwf n a b).trans (congrArg some (if_neg hb))

end FlashAgent

end Sys2Proof.Machine

/-! ### The rows of a bulk write (R248, D28) -/

namespace Sys2Proof

/-- The rows of a legal configuration cover the words exactly (D28). -/
theorem Cfg.Legal.rows_mul_rowSize {c : Cfg} (h : c.Legal) : c.maxProgSize / c.rowSize * c.rowSize = c.maxProgSize := by
  obtain ⟨-, ⟨-, -, hdvd⟩, -⟩ := h
  exact Nat.div_mul_cancel (Nat.dvd_of_mod_eq_zero hdvd)

theorem Cfg.Legal.two_le_maxProgSize {c : Cfg} (h : c.Legal) : 2 ≤ c.maxProgSize := by
  obtain ⟨-, ⟨htwo, -, -⟩, -⟩ := h
  exact htwo

/-- The sizes are far below 2^31, so that no span wraps onto itself (D28, D8). -/
theorem Cfg.Legal.sizes_le {c : Cfg} (h : c.Legal) : c.rowSize ≤ 2 ^ 31 ∧ c.maxProgSize ≤ 2 ^ 31 := by
  obtain ⟨-, -, -, -, -, hrow, -, hmax⟩ := h
  omega

end Sys2Proof

namespace Sys2Proof.Machine

/-- The words of the first `n` rows of `r` words are the first `n * r` words. -/
theorem flatMap_rows_eq_take {α : Type} (ws : List α) (r n : Nat) :
    (List.range n).flatMap (fun j => (ws.drop (j * r)).take r) = ws.take (n * r) := by
  induction n with
  | zero => simp
  | succ n ih => rw [List.range_succ, List.flatMap_append, ih, List.flatMap_singleton, ← List.take_add, Nat.succ_mul]

/-- Settles O19: a row is cut from whole words, and the rows are the words one after the other. -/
theorem bulkRowsCoverTheWords : Obligations.BulkRowsCoverTheWords := by
  intro c a ws hlegal hlen h0
  rw [forceJumpPair_of_ne_zero h0]
  refine ⟨fun row hrow => ?_, ?_⟩
  · obtain ⟨j, hj, rfl⟩ := List.mem_map.1 hrow
    have hend : (j + 1) * c.rowSize ≤ ws.length := by
      rw [hlen, ← hlegal.rows_mul_rowSize]
      exact Nat.mul_le_mul_right _ (List.mem_range.1 hj)
    rw [Nat.succ_mul] at hend
    rw [List.length_take, List.length_drop]
    omega
  · rw [bulkRows, List.flatMap_map, flatMap_rows_eq_take, hlegal.rows_mul_rowSize, ← hlen, List.take_length]

/-- Rows written one after the other are one write of their words. -/
theorem foldl_writeWords_rows (f : FlashAgent) (a : Addr) {ws : List Word} {r n : Nat} (h : n * r ≤ ws.length) :
    ((List.range n).map fun j => (spanAddr a (j * r), (ws.drop (j * r)).take r)).foldl
      (fun f row => f.writeWords row.1 row.2) f = f.writeWords a (ws.take (n * r)) := by
  induction n with
  | zero => simp [FlashAgent.writeWords]
  | succ n ih =>
    rw [Nat.succ_mul] at h ⊢
    rw [List.range_succ, List.map_append, List.foldl_append, ih (by omega), List.take_add,
      FlashAgent.writeWords_append, List.length_take_of_le (by omega)]
    rfl

/-- Under a legal configuration the row requests of a bulk write leave what one write of all its words leaves. -/
theorem foldl_bulkRows {c : Cfg} (hc : c.Legal) (f : FlashAgent) (a : Addr) {ws : List Word}
    (hlen : ws.length = c.maxProgSize) :
    (bulkRows c a ws).foldl (fun f row => f.writeWords row.1 row.2) f = f.writeWords a ws := by
  have hrows := hc.rows_mul_rowSize
  rw [bulkRows, foldl_writeWords_rows f a (by omega), hrows, ← hlen, List.take_length]

theorem forceJumpPair_length {ws : List Word} (h : 2 ≤ ws.length) (c : Cfg) (a : Addr) :
    (forceJumpPair c a ws).length = ws.length := by
  by_cases h0 : a = 0#32
  · subst h0
    simp [forceJumpPair_zero]
    omega
  · rw [forceJumpPair_of_ne_zero h0]

/-- At address 0 the first two words are the jump pair, every other word is the one sent (R248). -/
theorem forceJumpPair_getElem? (c : Cfg) (a : Addr) (ws : List Word) (k : Nat) :
    (forceJumpPair c a ws)[k]? =
      if a = 0#32 ∧ k = 0 then some c.jump0 else if a = 0#32 ∧ k = 1 then some c.jump1 else ws[k]? := by
  by_cases h0 : a = 0#32
  · subst h0
    rw [forceJumpPair_zero]
    match k with
    | 0 => simp
    | 1 => simp
    | k + 2 => simp [Nat.add_comm 2 k]
  · simp [forceJumpPair_of_ne_zero h0, h0]

end Sys2Proof.Machine

/-! ### Flash under the reference model after the flash-writing commands (R244, R247, R248, R252, D19) -/

namespace Sys2Proof.Machine

/-- What an accepted bulk write leaves behind the flash port: its words, the forced jump pair among them. -/
theorem exec_writeMaxProgSize_of_legal {a : Addr} {ws : List Word} {s : State} (hc : s.cfg.Legal)
    (hlen : ws.length = s.cfg.maxProgSize) (hboot : inBoot s.cfg a = false) :
    exec (.writeMaxProgSize a ws) s = .next
      ((s.emitAll ((bulkRows s.cfg a (forceJumpPair s.cfg a ws)).map fun r => .writeRow r.1 r.2)).withFlash
        (s.flash.writeWords a (forceJumpPair s.cfg a ws))) := by
  have hforced := forceJumpPair_length (hlen ▸ hc.two_le_maxProgSize) s.cfg a
  rw [exec_writeMaxProgSize_of_accepted hboot, foldl_bulkRows hc _ _ (hforced.trans hlen)]

/-- Under the reference model a write of words leaves each at its address. -/
theorem wordAt_writeWords_of_reference {f : FlashAgent} {d : Word} {m : WordMemory} (hf : f = .reference d m)
    (hwf : f.wf = true) (a : Addr) {ws : List Word} (hlen : ws.length ≤ 2 ^ 31) {k : Nat} (hk : k < ws.length) :
    (f.writeWords a ws).wordAt (a + BitVec.ofNat 32 (2 * k)) = ws[k]? := by
  rw [← spanAddr_eq, FlashAgent.wordAt_writeWords_spanAddr hwf hlen hk, List.getElem?_eq_getElem hk, hf]
  rfl

/-- Settles O17: the erased page, with the pair re-written at 0, and the words of a write, the forced pair included. -/
theorem referenceFlashEffects : Obligations.ReferenceFlashEffects := by
  intro s t d m a ws hlegal hf hwf hboot
  refine ⟨fun h b hlo hhi => ?_, fun hlen hivt h k hk => ?_, fun hlen h k hk => ?_⟩
  · have hpage : (s.flash.erasePage s.cfg.pageSize a).wordAt b = some d := by
      rw [hf] at hwf ⊢
      exact (FlashAgent.wordAt_erasePage_reference hwf _ a b).trans (congrArg some (if_pos ⟨hlo, hhi⟩))
    by_cases h0 : a = 0#32
    · subst h0
      rw [exec_erasePage_zero hboot] at h
      cases h
      rw [State.withFlash_flash, FlashAgent.wordAt_writeWords_pair_zero (FlashAgent.wf_erasePage hwf _ _), hpage]
      simp [apply_ite some]
    · rw [exec_erasePage_of_ne_zero hboot h0] at h
      cases h
      simpa [h0] using hpage
  · rw [exec_writeRow_of_accepted hboot (belowIvt_eq_false_iff.2 hivt)] at h
    cases h
    exact wordAt_writeWords_of_reference hf hwf a (hlen ▸ hlegal.sizes_le.1) hk
  · rw [exec_writeMaxProgSize_of_legal hlegal hlen hboot] at h
    cases h
    have hforced := forceJumpPair_length (hlen ▸ hlegal.two_le_maxProgSize) s.cfg a
    rw [← forceJumpPair_getElem?]
    exact wordAt_writeWords_of_reference hf hwf a (hforced.trans hlen ▸ hlegal.sizes_le.2) (hforced ▸ hk)

/-- Settles O24: the erase is followed by the pair, and the first two words of a bulk write at 0 are the pair. -/
theorem resetVectorSelfHeals : Obligations.ResetVectorSelfHeals := by
  intro s ws d m hlegal hf hwf hboot hlen
  refine ⟨⟨_, exec_erasePage_zero hboot, ?_⟩, ⟨_, exec_writeMaxProgSize_of_legal hlegal hlen hboot, ?_⟩⟩
  · have hpair := FlashAgent.wordAt_writeWords_pair_zero (FlashAgent.wf_erasePage hwf s.cfg.pageSize 0#32)
      s.cfg.jump0 s.cfg.jump1
    rw [hf] at hpair
    rw [State.withFlash_flash, hf]
    exact ⟨hpair 0#32, hpair 2#32⟩
  · obtain ⟨-, -, hbulk⟩ := referenceFlashEffects s _ d m 0#32 ws hlegal hf hwf hboot
    have hword := hbulk hlen (exec_writeMaxProgSize_of_legal hlegal hlen hboot)
    have htwo := hlegal.two_le_maxProgSize
    exact ⟨hword 0 (by omega), hword 1 (by omega)⟩

/-- `t` is `s` but for the trace and flash, and the words at the addresses `kept` are as they were. -/
def FlashFrame (kept : Addr → Prop) (s t : State) : Prop :=
  t = { s with trace := t.trace, flash := t.flash } ∧ ∀ b, kept b → t.flash.wordAt b = s.flash.wordAt b

section
variable {a : Addr} {ws : List Word} {s t : State} (hwf : s.flash.wf = true) (hboot : inBoot s.cfg a = false)
include hwf hboot

theorem flashFrame_of_erasePage (h : exec (.erasePage a) s = .next t) :
    FlashFrame (fun b => ¬ (a.toNat - a.toNat % (s.cfg.pageSize * 2) ≤ b.toNat ∧
      b.toNat < a.toNat - a.toNat % (s.cfg.pageSize * 2) + s.cfg.pageSize * 2) ∧
        ¬ (a = 0#32 ∧ (b = 0#32 ∨ b = 2#32))) s t := by
  by_cases h0 : a = 0#32
  · subst h0
    rw [exec_erasePage_zero hboot] at h
    cases h
    refine ⟨rfl, fun b ⟨hpage, hpair⟩ => ?_⟩
    obtain ⟨hb0, hb2⟩ : b ≠ 0#32 ∧ b ≠ 2#32 := by simpa using hpair
    rw [State.withFlash_flash, FlashAgent.wordAt_writeWords_pair_zero (FlashAgent.wf_erasePage hwf _ _),
      FlashAgent.wordAt_erasePage_of_outside hwf hpage]
    simp [hb0, hb2]
  · rw [exec_erasePage_of_ne_zero hboot h0] at h
    cases h
    exact ⟨rfl, fun b ⟨hpage, _⟩ => FlashAgent.wordAt_erasePage_of_outside hwf hpage⟩

theorem flashFrame_of_writeRow (h : exec (.writeRow a ws) s = .next t) :
    FlashFrame (fun b => ∀ k < ws.length, b ≠ spanAddr a k) s t := by
  cases hivt : belowIvt s.cfg a with
  | true =>
    rw [exec_writeRow_of_rejected (.inr hivt)] at h
    cases h
    exact ⟨rfl, fun _ _ => rfl⟩
  | false =>
    rw [exec_writeRow_of_accepted hboot hivt] at h
    cases h
    exact ⟨rfl, fun b hb => FlashAgent.wordAt_writeWords_of_ne hwf hb⟩

theorem flashFrame_of_writeMaxProgSize (hc : s.cfg.Legal) (hlen : ws.length = s.cfg.maxProgSize)
    (h : exec (.writeMaxProgSize a ws) s = .next t) :
    FlashFrame (fun b => ∀ k < ws.length, b ≠ spanAddr a k) s t := by
  rw [exec_writeMaxProgSize_of_legal hc hlen hboot] at h
  cases h
  have hforced := forceJumpPair_length (hlen ▸ hc.two_le_maxProgSize) s.cfg a
  exact ⟨rfl, fun b hb => FlashAgent.wordAt_writeWords_of_ne hwf (by rwa [hforced])⟩

end

/-- Settles O51: in the boot region the three commands only record E4, elsewhere each has a frame of its own. -/
theorem flashWritingCommandsFrame : Obligations.FlashWritingCommandsFrame := by
  intro i a ws s t hlegal hwf hi hiwf h
  simp only [← spanAddr_eq]
  cases hboot : inBoot s.cfg a with
  | true =>
    rw [exec_of_inBoot hi hboot] at h
    cases h
    exact ⟨rfl, fun _ _ _ _ => rfl, fun _ _ _ => rfl⟩
  | false =>
    simp only [List.mem_cons, List.not_mem_nil, or_false] at hi
    rcases hi with rfl | rfl | rfl
    · obtain ⟨hstate, hwords⟩ := flashFrame_of_erasePage hwf hboot h
      exact ⟨hstate, fun _ b hpage hpair => hwords b ⟨hpage, hpair⟩, fun hne => absurd rfl hne⟩
    · obtain ⟨hstate, hwords⟩ := flashFrame_of_writeRow hwf hboot h
      exact ⟨hstate, nofun, fun _ => hwords⟩
    · obtain ⟨hstate, hwords⟩ := flashFrame_of_writeMaxProgSize hwf hboot hlegal (beq_iff_eq.1 hiwf) h
      exact ⟨hstate, nofun, fun _ => hwords⟩

end Sys2Proof.Machine

/-! ### The session: startup, the loop and the abort poll (R281 to R284, R287) -/

namespace Sys2Proof.Machine

/-- A block that has left has no step (R286). -/
theorem step_of_runApplication {s : State} (hlegal : s.cfg.Legal) (hmode : s.mode = .runApplication) :
    step s = .fault .terminated := by
  simp [step_of_legal hlegal, stepMode, hmode]

theorem step_of_init {s : State} (hlegal : s.cfg.Legal) (hmode : s.mode = .init) : step s = startupDecision s := by
  simp [step_of_legal hlegal, stepMode, hmode]

section
variable {s : State} (hlegal : s.cfg.Legal) (hmode : s.mode = .bootWait)
include hlegal hmode

theorem step_of_service (hphase : s.phase = .service) : step s = servicePart s := by
  simp [step_of_legal hlegal, stepMode, hmode, loopPart, hphase]

theorem step_of_drain (hphase : s.phase = .drain) : step s = drainPart s := by
  simp [step_of_legal hlegal, stepMode, hmode, loopPart, hphase]

theorem step_of_poll (hphase : s.phase = .poll) : step s = pollPart s := by
  simp [step_of_legal hlegal, stepMode, hmode, loopPart, hphase]

end

/-- Settles O38, by the one read of ENTER. -/
theorem startupDecisionRule : Obligations.StartupDecisionRule := by
  intro s hlegal hmode
  rw [step_of_init hlegal hmode]
  refine ⟨fun henter => ?_, fun henter => ?_⟩
  · simp [startupDecision, henter, State.emit, State.withMode, State.withPhase]
  · simp [startupDecision, henter, jumpApp_eq, State.emit, State.withMode]

/-- Settles O39, by the rule of each part of the loop and the poll's answer, or the lack of one. -/
theorem loopIterationRule : Obligations.LoopIterationRule := by
  intro s hlegal hmode
  refine ⟨fun hp => ?_, fun hp hrx => ?_, fun l hp hrx => ?_, fun hp ha => ?_, fun l hp ha => ?_⟩
  · exact step_of_service hlegal hmode hp
  · rw [step_of_drain hlegal hmode hp]
    simp [drainPart, pollRx, hrx, State.withPhase]
  · rw [step_of_drain hlegal hmode hp]
    simp [drainPart, pollRx, hrx, State.withPhase, State.withRx]
  · rw [step_of_poll hlegal hmode hp]
    simp [pollPart, pollAbort, ha, State.withPhase, State.emit]
  · rw [step_of_poll hlegal hmode hp]
    simp [pollPart, pollAbort, ha, State.withPhase, State.emit, State.withAbort]

/-- Settles O40: the poll writes the list of answers, the trace and the mode only. -/
theorem abortLeavesPartialFrame : Obligations.AbortLeavesPartialFrame := by
  intro s l hlegal hmode hp ha
  rw [step_of_poll hlegal hmode hp]
  simp [pollPart, pollAbort, ha, jumpApp_eq, State.emit, State.withAbort, State.withMode]

end Sys2Proof.Machine

/-! ### Leaving the bootloader: by which steps, and with the jump as the last event (R286, R287) -/

namespace Sys2Proof.Machine

/-- No event of a list is the jump. -/
def Jumpless (es : List Event) : Prop := es.all (fun e => !e.isJump) = true

theorem jumpless_append {a b : List Event} : Jumpless (a ++ b) ↔ Jumpless a ∧ Jumpless b := by
  simp only [Jumpless, List.all_append, Bool.and_eq_true]

theorem jumpless_cons {e : Event} {es : List Event} : Jumpless (e :: es) ↔ e.isJump = false ∧ Jumpless es := by
  simp only [Jumpless, List.all_cons, Bool.and_eq_true, Bool.not_eq_true']

theorem jumpless_iff {es : List Event} : Jumpless es ↔ ∀ e ∈ es, e.isJump = false := by
  simp [Jumpless]

/-- From `s` to `t` the block stays in the bootloader and makes no jump. -/
def Stays (s t : State) : Prop :=
  t.mode ≠ .runApplication ∧ ∃ es, t.trace = s.trace ++ es ∧ Jumpless es

/-- From `s` to `t` the block leaves the bootloader, with its one jump as the last event. -/
def Leaves (s t : State) : Prop :=
  t.mode = .runApplication ∧
    ∃ es, t.trace = s.trace ++ es ++ [.jumpToApplication s.cfg.appStartAddr] ∧ Jumpless es

/-- The bytes in the buffer are a verified START_APP frame (R188, R249). -/
def HoldsStartApp (s : State) : Prop :=
  cksumOk s = true ∧ decodePayload s.cfg (payload s) = .ok .startApp

theorem Stays.of_no_event {s t : State} (hm : t.mode ≠ .runApplication) (ht : t.trace = s.trace) : Stays s t :=
  ⟨hm, [], by simp [ht], rfl⟩

theorem Stays.of_event {s t : State} {e : Event} (hm : t.mode ≠ .runApplication) (ht : t.trace = s.trace ++ [e])
    (he : e.isJump = false) : Stays s t :=
  ⟨hm, [e], ht, jumpless_cons.2 ⟨he, rfl⟩⟩

/-- The jump after one event of another kind (R281, R284). -/
theorem Leaves.of_jumpApp {s u : State} {e : Event} (hc : u.cfg = s.cfg) (ht : u.trace = s.trace ++ [e])
    (he : e.isJump = false) : Leaves s (jumpApp u) :=
  ⟨rfl, [e], by simp [jumpApp_eq, ht, hc], jumpless_cons.2 ⟨he, rfl⟩⟩

/-- One event before, of another kind than the jump, changes neither account. -/
theorem Stays.after_emit {s t : State} {e : Event} (h : Stays (s.emit e) t) (he : e.isJump = false) : Stays s t := by
  obtain ⟨hm, es, ht, hes⟩ := h
  exact ⟨hm, e :: es, by simp [ht], jumpless_cons.2 ⟨he, hes⟩⟩

theorem Leaves.after_emit {s t : State} {e : Event} (h : Leaves (s.emit e) t) (he : e.isJump = false) :
    Leaves s t := by
  obtain ⟨hm, es, ht, hes⟩ := h
  exact ⟨hm, e :: es, by simp [ht], jumpless_cons.2 ⟨he, hes⟩⟩

/-- The verdict on a frame stays in the bootloader, unless the frame is START_APP's (R191, R249). -/
theorem FrameVerdict.stays_or_leaves {s u : State} {es : List Event} (h : FrameVerdict s u es)
    (hm : s.mode ≠ .runApplication) : Stays s u ∨ HoldsStartApp s ∧ Leaves s u := by
  have ht : u.trace = s.trace ++ es := (congrArg State.trace h.frame :)
  cases h with
  | unverified r _ hes hu =>
    subst hes hu
    exact .inl ⟨hm, _, ht, rfl⟩
  | dropped r _ hes _ _ hu =>
    subst hes hu
    exact .inl ⟨hm, _, ht, rfl⟩
  | performed k es' hes _ hc hk _ he =>
    subst hes
    have hmode := congrArg State.mode he.frame
    have hjumps := he.jumps
    by_cases hstart : k = .startApp
    · simp only [hstart, if_true] at hmode hjumps
      exact .inr ⟨⟨hc, hstart ▸ hk⟩, hmode, [.live], by simp [ht, hjumps], rfl⟩
    · simp only [hstart, if_false] at hmode hjumps
      exact .inl ⟨hmode ▸ hm, _, ht, jumpless_cons.2 ⟨rfl, jumpless_iff.2 hjumps⟩⟩

/-- A byte taken leaves the bootloader only as the end marker of a verified START_APP frame. -/
theorem Received.stays_or_leaves {b : Byte} {s t : State} (h : Received b s t) (hm : s.mode = .bootWait) :
    Stays s t ∨ (b = endMarkerByte ∧ s.pstate = .readVerbatim ∧ HoldsStartApp s) ∧ Leaves s t := by
  have hrun : s.mode ≠ .runApplication := by simp [hm]
  cases h with
  | start _ _ ht | escape _ _ ht | stored _ _ _ ht =>
    subst ht
    exact .inl (.of_event hrun rfl rfl)
  | noise _ _ ht | overflowed _ _ _ ht =>
    subst ht
    exact .inl (Stays.after_emit (.of_event hrun rfl rfl) rfl)
  | ended u es hp hb _ hv ht =>
    subst ht
    rcases hv.stays_or_leaves hrun with hstay | ⟨hframe, hleave⟩
    · refine .inl (Stays.after_emit (e := .rx b) ?_ rfl)
      split <;> exact hstay
    · have hu : u.mode ≠ .bootWait := by simp [hleave.1]
      rw [if_neg hu]
      exact .inr ⟨⟨hb, hp, hframe⟩, hleave.after_emit rfl⟩

/-- The three ways out of the bootloader: ENTER false at startup, an abort poll that answers true, and the end marker of
a verified START_APP frame (R286). -/
def LeaveCause (s : State) : Prop :=
  (s.mode = .init ∧ s.enter = false) ∨
  (s.mode = .bootWait ∧ s.phase = .poll ∧ s.abort.head? = some true) ∨
  (s.mode = .bootWait ∧ s.phase = .drain ∧ s.rx.head? = some (some endMarkerByte) ∧ s.pstate = .readVerbatim ∧
    HoldsStartApp s)

/-- Every step stays in the bootloader, or leaves it for one of the three causes. -/
theorem step_stays_or_leaves {s t : State} (h : step s = .next t) : Stays s t ∨ LeaveCause s ∧ Leaves s t := by
  obtain ⟨-, hcases⟩ := step_next_cases h
  rcases hcases with ⟨-, -, rfl⟩ | ⟨hm, he, rfl⟩ | ⟨hm, -, rfl⟩ | ⟨hm, -, -, rfl⟩ | ⟨l, hm, -, -, rfl⟩ |
    ⟨b, l, hm, hp, hrx, hrecv⟩ | ⟨hm, -, -, rfl⟩ | ⟨l, hm, -, -, rfl⟩ | ⟨l, hm, hp, ha, rfl⟩
  · exact .inl (.of_event (by simp) rfl rfl)
  · exact .inr ⟨.inl ⟨hm, he⟩, .of_jumpApp rfl rfl rfl⟩
  · exact .inl (.of_event (by simp [hm]) rfl rfl)
  · exact .inl (.of_no_event (by simp [hm]) rfl)
  · exact .inl (.of_no_event (by simp [hm]) rfl)
  · rcases (received_of_recvByte hrecv).stays_or_leaves hm with hstay | ⟨⟨rfl, hverb, hframe⟩, hleave⟩
    · exact .inl hstay
    · exact .inr ⟨.inr (.inr ⟨hm, hp, by simp [hrx], hverb, hframe⟩), hleave⟩
  · exact .inl (.of_event (by simp [hm]) rfl rfl)
  · exact .inl (.of_event (by simp [hm]) rfl rfl)
  · exact .inr ⟨.inr (.inl ⟨hm, hp, by simp [ha]⟩), .of_jumpApp rfl rfl rfl⟩

/-- Only a running block steps (R286). -/
theorem mode_ne_runApplication_of_step {s t : State} (h : step s = .next t) : s.mode ≠ .runApplication := by
  intro hm
  by_cases hlegal : s.cfg.Legal
  · cases (step_of_runApplication hlegal hm).symm.trans h
  · cases (step_of_illegal hlegal).symm.trans h

/-- Settles O42: a step is made by a running block, whose trace holds no jump; it adds none, or the jump last. -/
theorem stepKeepsJumpLast : Obligations.StepKeepsJumpLast := by
  intro s t hs h
  have hquiet : Jumpless s.trace := hs.running (mode_ne_runApplication_of_step h)
  rcases step_stays_or_leaves h with ⟨hm, es, ht, hes⟩ | ⟨-, hm, es, ht, hes⟩
  · have hall : Jumpless t.trace := ht ▸ jumpless_append.2 ⟨hquiet, hes⟩
    exact ⟨fun _ => hall, fun hrun => absurd hrun hm⟩
  · refine ⟨fun hrun => absurd hm hrun, fun _ => ⟨s.trace ++ es, ?_, jumpless_append.2 ⟨hquiet, hes⟩⟩⟩
    rw [ht, configurationIsReadOnly s t h]

/-- Settles O41: a step out of the bootloader has one of the three causes. -/
theorem runApplicationIsTerminal : Obligations.RunApplicationIsTerminal := by
  refine ⟨fun s t hm h => mode_ne_runApplication_of_step h hm, fun s t h hm => ?_⟩
  rcases step_stays_or_leaves h with ⟨hrun, -⟩ | ⟨hcause, -⟩
  · exact absurd hm hrun
  · exact hcause

end Sys2Proof.Machine

/-! ### Where a step stops (R164, R286, D39) -/

namespace Sys2Proof.Machine

/-- Only a verified frame sends a reply, so only its end marker can be stuck on the sink (R188, R190). -/
theorem cksumOk_of_execEndMarker_blocked {s : State} {tr : List Event}
    (h : execEndMarker s = .fault (.sinkBlocked tr)) : cksumOk s = true := by
  have hcap : s.i ≤ s.cfg.cap := by
    by_contra hover
    simp [execEndMarker, endOfMessage, hover] at h
  have hend : execEndMarker s = andThen (judgeFrame (s.withPState .endOfMessage)) finishFrame := if_pos hcap
  rw [hend] at h
  rcases judgeFrame_cases (s.withPState .endOfMessage) with ⟨-, e⟩ | ⟨-, -, e⟩ | ⟨-, hc, -⟩
  · simp [e, finishFrame_eq] at h
  · simp [e, finishFrame_eq] at h
  · exact hc

theorem append_ne_sinkBlocked (v : Byte) (s : State) (tr : List Event) : append v s ≠ .fault (.sinkBlocked tr) := by
  rcases append_cases v s with ⟨-, e⟩ | ⟨-, e⟩ | ⟨-, e⟩ <;> simp [e]

/-- A byte taken is stuck on the sink only as the end marker of a verified frame. -/
theorem endMarker_of_recvByte_blocked {b : Byte} {s : State} {tr : List Event}
    (h : recvByte b s = .fault (.sinkBlocked tr)) :
    b = endMarkerByte ∧ s.pstate = .readVerbatim ∧ cksumOk s = true := by
  have hr := recvByte_rule b s
  generalize recvByte b s = o at h hr
  cases hr with
  | atEnd | start | noise | escape => cases h
  | ending hp hb => exact ⟨hb, hp, cksumOk_of_execEndMarker_blocked (s := s.emit (.rx b)) h⟩
  | data | escaped => exact absurd h (append_ne_sinkBlocked _ _ tr)

/-- A step is stuck on the sink only in the drain, at a byte it takes. -/
theorem recvByte_blocked_of_step {s : State} {tr : List Event} (h : step s = .fault (.sinkBlocked tr)) :
    ∃ b l, s.mode = .bootWait ∧ s.phase = .drain ∧ s.rx = some b :: l ∧
      recvByte b (s.withRx l) = .fault (.sinkBlocked tr) := by
  have hlegal : s.cfg.Legal := by
    by_contra hillegal
    cases (step_of_illegal hillegal).symm.trans h
  cases hm : s.mode with
  | init =>
    rw [step_of_init hlegal hm, startupDecision] at h
    split at h <;> cases h
  | runApplication => cases (step_of_runApplication hlegal hm).symm.trans h
  | bootWait =>
    cases hp : s.phase with
    | service => cases (step_of_service hlegal hm hp).symm.trans h
    | poll =>
      rw [step_of_poll hlegal hm hp, pollPart] at h
      split at h <;> cases h
    | drain =>
      rw [step_of_drain hlegal hm hp, drainPart] at h
      rcases pollRx_cases s with ⟨-, e⟩ | ⟨x, l, hrx, e⟩ <;> rw [e] at h
      · cases h
      · cases x with
        | none => cases h
        | some b => exact ⟨b, l, rfl, rfl, hrx, h⟩

/-- Settles O55: the invariant leaves the two stops, and the one on the sink is at an end marker. -/
theorem stopsOfTheStep : Obligations.StopsOfTheStep := by
  intro s hlegal hs
  refine ⟨step_of_runApplication hlegal, fun r h => ?_⟩
  rcases stepMode_stops hs with (⟨t, e⟩ | ⟨hbound, tr, e⟩) | ⟨hm, e⟩ <;>
    rw [← step_of_legal hlegal, h] at e <;> cases e
  · obtain ⟨b, l, hm, hp, hrx, hrecv⟩ := recvByte_blocked_of_step h
    obtain ⟨rfl, hverb, hc⟩ := endMarker_of_recvByte_blocked hrecv
    exact .inr ⟨⟨tr, rfl⟩, hbound, hm, hp, by rw [hrx]; rfl, hverb, hc⟩
  · exact .inl ⟨rfl, hm⟩

end Sys2Proof.Machine

/-! ### Error causes (R300 to R302, R306) -/

namespace Sys2Proof.Machine

/-- Settles O36: the stops of a state of the invariant are a refusing sink and RUN_APPLICATION. -/
theorem blockNeverTraps : Obligations.BlockNeverTraps := by
  intro s hlegal hs hmode hsink
  rw [step_of_legal hlegal]
  rcases stepMode_stops hs with (hnext | ⟨hbound, -⟩) | ⟨hrun, -⟩
  · exact hnext
  · exact absurd hsink hbound
  · exact absurd hrun hmode

/-- The events of a step that took the byte `b` and then recorded the cause `r`: nothing beside the two but the liveness
pulse, for the causes a verified frame can have (R302). -/
inductive CauseEvents (b : Byte) (r : DiscardReason) : List Event → Prop where
  | afterLive (hr : r.number = 4 ∨ r.number = 5 ∨ r.number = 6 ∨ r.number = 8) :
      CauseEvents b r [.rx b, .live, .discard r]
  | withoutLive (hr : r.number = 1 ∨ r.number = 2 ∨ r.number = 3 ∨ r.number = 7) :
      CauseEvents b r [.rx b, .discard r]

/-- The trace grew from `s` to `t` by events that, if a cause is among them, are those of that cause only. -/
def GrowsSilently (s t : State) : Prop :=
  ∃ es, t.trace = s.trace ++ es ∧ ∀ r, Event.discard r ∈ es → ∃ b, CauseEvents b r es

theorem GrowsSilently.of_no_cause {s t : State} {es : List Event} (ht : t.trace = s.trace ++ es)
    (hes : ∀ r, Event.discard r ∉ es) : GrowsSilently s t :=
  ⟨es, ht, fun r hr => absurd hr (hes r)⟩

theorem GrowsSilently.of_cause {b : Byte} {r : DiscardReason} {s t : State} {es : List Event}
    (ht : t.trace = s.trace ++ es) (hes : CauseEvents b r es) : GrowsSilently s t := by
  refine ⟨es, ht, fun r' hr' => ⟨b, ?_⟩⟩
  cases hes with
  | afterLive hr =>
    obtain rfl : r' = r := by simpa using hr'
    exact .afterLive hr
  | withoutLive hr =>
    obtain rfl : r' = r := by simpa using hr'
    exact .withoutLive hr

/-- The end of a frame, after the byte `b` that ended it: E2 and E7 come before the liveness pulse, E6 and E8 after it,
and a command performed after it records E4 or E5 alone or no cause (R188 to R190). -/
theorem FrameVerdict.growsSilently {b : Byte} {s u : State} {es : List Event}
    (h : FrameVerdict (s.emit (.rx b)) u es) : GrowsSilently s u := by
  have ht : u.trace = s.trace ++ .rx b :: es := by
    simpa using (congrArg State.trace h.frame :)
  cases h with
  | unverified r hr hes _ =>
    subst hes
    exact .of_cause ht (.withoutLive (by omega))
  | dropped r hr hes _ _ _ =>
    subst hes
    exact .of_cause ht (.afterLive (by omega))
  | performed k es' hes _ _ _ _ he =>
    subst hes
    rcases he.discards with ⟨r, rfl, hr⟩ | hnone
    · exact .of_cause ht (.afterLive (by omega))
    · exact .of_no_cause ht fun r => by simpa using hnone r

/-- A byte taken records E1 or E3 at once, or what the end of its frame records. -/
theorem Received.growsSilently {b : Byte} {s t : State} (h : Received b s t) : GrowsSilently s t := by
  cases h with
  | start _ _ ht | escape _ _ ht | stored _ _ _ ht =>
    subst ht
    exact .of_no_cause (es := [.rx b]) rfl (by simp)
  | noise _ _ ht =>
    subst ht
    exact .of_cause (by simp) (.withoutLive (b := b) (r := .framingNoise b) (.inl rfl))
  | overflowed _ _ _ ht =>
    subst ht
    exact .of_cause (by simp [wipe_eq]) (.withoutLive (b := b) (r := .overflow) (.inr (.inr (.inl rfl))))
  | ended u es _ _ _ hv ht =>
    subst ht
    split <;> exact hv.growsSilently

/-- A rule of the session records no cause; a receive step records one silently. -/
theorem step_growsSilently {s t : State} (h : step s = .next t) : GrowsSilently s t := by
  obtain ⟨-, hcases⟩ := step_next_cases h
  rcases hcases with ⟨-, -, rfl⟩ | ⟨-, -, rfl⟩ | ⟨-, -, rfl⟩ | ⟨-, -, -, rfl⟩ | ⟨l, -, -, -, rfl⟩ |
    ⟨b, l, -, -, -, hrecv⟩ | ⟨-, -, -, rfl⟩ | ⟨l, -, -, -, rfl⟩ | ⟨l, -, -, -, rfl⟩
  · exact .of_no_cause (es := [.enter true]) rfl (by simp)
  · exact .of_no_cause (es := [.enter false, .jumpToApplication s.cfg.appStartAddr]) (by simp [jumpApp_eq]) (by simp)
  · exact .of_no_cause (es := [.wdt]) rfl (by simp)
  · exact .of_no_cause (es := []) (by simp) (by simp)
  · exact .of_no_cause (es := []) (by simp) (by simp)
  · exact (received_of_recvByte hrecv).growsSilently
  · exact .of_no_cause (es := [.abort false]) rfl (by simp)
  · exact .of_no_cause (es := [.abort false]) rfl (by simp)
  · exact .of_no_cause (es := [.abort true, .jumpToApplication s.cfg.appStartAddr]) (by simp [jumpApp_eq]) (by simp)

/-- Settles O35: the events of a step are determined by the trace, and those of a cause are one of two lists, by its
number. -/
theorem causesAreSilent : Obligations.CausesAreSilent := by
  intro s t es r h ht hr
  obtain ⟨es', ht', hsilent⟩ := step_growsSilently h
  obtain rfl : es' = es := List.append_cancel_left (ht'.symm.trans ht)
  obtain ⟨b, hcause⟩ := hsilent r hr
  cases hcause with
  | afterLive hnum => exact ⟨fun _ => ⟨b, rfl⟩, fun hnum' => by omega⟩
  | withoutLive hnum => exact ⟨fun hnum' => by omega, fun _ => ⟨b, rfl⟩⟩

end Sys2Proof.Machine

/-! ### Resynchronising the receiver (R339) -/

namespace Sys2Proof.Machine

/-- A step in the drain with a byte next on RX, when it answers, has taken that byte (R193). -/
theorem received_of_step {b : Byte} {l : List (Option Byte)} {s t : State} (hm : s.mode = .bootWait)
    (hp : s.phase = .drain) (hrx : s.rx = some b :: l) (h : step s = .next t) : Received b (s.withRx l) t := by
  obtain ⟨hlegal, -⟩ := step_next_cases h
  exact received_of_recvByte ((step_of_rx ⟨hlegal, hm, hp⟩ hrx).symm.trans h)

/-- A byte taken leaves the place in the loop and the bytes still on RX alone (R85). -/
theorem Received.phase_rx {b : Byte} {s t : State} (h : Received b s t) : t.phase = s.phase ∧ t.rx = s.rx := by
  cases h with
  | start _ _ ht | noise _ _ ht | escape _ _ ht | stored _ _ _ ht | overflowed _ _ _ ht => subst ht; exact ⟨rfl, rfl⟩
  | ended u es _ _ _ hv ht =>
    have hphase : u.phase = s.phase := (congrArg State.phase hv.frame :)
    have hrx : u.rx = s.rx := (congrArg State.rx hv.frame :)
    subst ht
    split <;> exact ⟨hphase, hrx⟩

theorem Received.mode {b : Byte} {s t : State} (h : Received b s t) : t.mode = s.mode ∨ t.mode = .runApplication := by
  cases h with
  | start _ _ ht | noise _ _ ht | escape _ _ ht | stored _ _ _ ht | overflowed _ _ _ ht => subst ht; exact .inl rfl
  | ended u es _ _ _ hv ht =>
    subst ht
    split <;> exact hv.mode

/-- The receiver waits for a start marker, with nothing of a frame taken. -/
structure State.AwaitsStart (s : State) : Prop where
  mode : s.mode = .bootWait
  pstate : s.pstate = .waitForStart
  cursor : s.i = 0

/-- An end marker leaves no escape open: in READ_ESCAPED it is itself the escaped byte (R185). -/
theorem Received.not_escaped {s t : State} (h : Received endMarkerByte s t) : t.pstate ≠ .readEscaped := by
  cases h with
  | start _ _ ht | stored _ _ _ ht | overflowed _ _ _ ht => subst ht; nofun
  | noise hp _ ht =>
    have hwait : t.pstate = .waitForStart := by rw [ht]; exact hp
    rw [hwait]; nofun
  | escape _ hb _ => exact absurd hb (by decide)
  | ended u es _ _ _ hv ht =>
    have hend : u.pstate = .endOfMessage := (congrArg State.pstate hv.frame :)
    subst ht
    split
    · nofun
    · rw [hend]; nofun

/-- Outside an escape an end marker ends the frame or finds none (R181, R183); the frame ended may start the
application (R191). -/
theorem Received.awaitsStart_or_leaves {s t : State} (h : Received endMarkerByte s t) (hm : s.mode = .bootWait)
    (hesc : s.pstate ≠ .readEscaped) (hwait : s.pstate = .waitForStart → s.i = 0) :
    t.AwaitsStart ∨ Leaves s t := by
  have hno (v : Byte) : ¬ StoresByte endMarkerByte s v := by
    rintro (⟨-, -, hb, -⟩ | ⟨hp, -⟩)
    · exact hb rfl
    · exact hesc hp
  rcases h.stays_or_leaves hm with ⟨hrun, -⟩ | ⟨-, hleave⟩
  · have hmode : t.mode = .bootWait := (h.mode.resolve_right hrun).trans hm
    refine .inl ?_
    cases h with
    | start _ hb _ => exact absurd hb (by decide)
    | noise hp _ ht => subst ht; exact ⟨hmode, hp, hwait hp⟩
    | escape _ hb _ => exact absurd hb (by decide)
    | stored v hv _ _ | overflowed v hv _ _ => exact absurd hv (hno v)
    | ended u es _ _ _ _ ht =>
      split at ht
      case isTrue => subst ht; exact ⟨hmode, rfl, rfl⟩
      case isFalse hu => exact absurd (ht ▸ hmode) hu
  · exact .inr hleave

/-- Settles O34: the first end marker leaves the receiver outside an escape, in a state of the invariant, where the
second ends the frame or finds none. -/
theorem twoEndMarkersResynchronise : Obligations.TwoEndMarkersResynchronise := by
  intro s t u rest hs hmode hphase hrx hst htu
  have hfirst := received_of_step hmode hphase hrx hst
  obtain ⟨htphase, htrx⟩ := hfirst.phase_rx
  have htrun := mode_ne_runApplication_of_step htu
  have htmode : t.mode = .bootWait := (hfirst.mode.resolve_right htrun).trans hmode
  have htok : ReceiverOk t := (stepKeepsInvariant s t hs hst).receiver htrun
  have hsecond := received_of_step htmode (htphase.trans hphase) htrx htu
  rcases hsecond.awaitsStart_or_leaves htmode hfirst.not_escaped htok.waitingEmpty with
    ⟨hu, hp, hi⟩ | ⟨hu, es, htrace, -⟩
  · exact .inl ⟨hu, hp, hi⟩
  · refine .inr ⟨hu, ?_⟩
    rw [htrace, List.getLast?_concat, State.withRx_cfg, configurationIsReadOnly s t hst]

end Sys2Proof.Machine

/-! ### A reset at any moment (R330, R332, R338) -/

namespace Sys2Proof.Machine

/-- Settles O56: of a step cut short only its effects behind the ports stay, and those keep flash in canonical form. -/
theorem resetAtAnyMoment : Obligations.ResetAtAnyMoment := by
  intro k s
  refine ⟨_, resetWithin_eq k s, rfl, rfl, rfl, rfl, fun _ => rfl, rfl, rfl, rfl, rfl, fun hs => ?_⟩
  exact ⟨rfl, replay_flash_wf _ hs.flashCanonical, fun _ => .of_empty rfl rfl rfl, fun _ => rfl⟩

/-- A block that has left makes no event (R286). -/
theorem stepEvents_of_runApplication {s : State} (hm : s.mode = .runApplication) : stepEvents s = [] := by
  by_cases hlegal : s.cfg.Legal
  · simp [stepEvents, step_of_runApplication hlegal hm]
  · simp [stepEvents, step_of_illegal hlegal]

/-- Settles O59: a block that has left has no step, and every reset of it is one between two steps. -/
theorem onlyResetLeavesApplication : Obligations.OnlyResetLeavesApplication := by
  refine ⟨fun s t hm hmove => ?_, fun s _ => .inr ⟨0, (resetWithin_zero s).symm⟩⟩
  rcases hmove with hstep | ⟨k, rfl⟩
  · exact absurd hm (mode_ne_runApplication_of_step hstep)
  · have hreset : s.resetWithin k = s.resetBlock := by
      rw [State.resetWithin, stepEvents_of_runApplication hm, List.take_nil, replay]
    rw [hreset]
    exact ⟨rfl, rfl⟩

/-- What a reset leaves of flash: the requests made before it have taken effect (R79; log 20). -/
theorem resetWithin_flash (k : Nat) (s : State) :
    (s.resetWithin k).flash = (replay ((stepEvents s).take k) s).flash := rfl

/-- The events of the step that ends a verified, accepted ERASE_PAGE(0) frame: the re-write of the jump pair comes right
after the erase (R244, R338). -/
theorem stepEvents_erasePage_zero {s : State} {rest : List (Option Byte)} (hs : s.Draining)
    (hp : s.pstate = .readVerbatim) (hrx : s.rx = some endMarkerByte :: rest) (hi : 2 ≤ s.i)
    (hcap : s.i ≤ s.cfg.cap) (hc : cksumOk s = true)
    (hk : decodePayload s.cfg (payload s) = .ok (.erasePage 0#32))
    (hboot : inBoot s.cfg 0#32 = false) :
    stepEvents s =
      [.rx endMarkerByte, .live, .erasePage 0#32, .writeDoubleWord 0#32 s.cfg.jump0 s.cfg.jump1] := by
  have hend := execEndMarker_of_command (s := (s.withRx rest).emit (.rx endMarkerByte)) hcap hi hc hk
    (exec_erasePage_zero hboot)
  have hstep := ((step_of_rx hs hrx).trans (recvByte_endMarker (s := s.withRx rest) hp)).trans hend
  refine stepEvents_of_next hstep ?_
  rw [if_pos (by exact hs.mode)]
  simp [wipe_eq]

/-- An erase of page 0 erases the words it holds (D19). -/
theorem FlashAgent.wordAt_erasePage_zero {d : Word} {m : WordMemory} (hwf : (FlashAgent.reference d m).wf = true)
    {n : Nat} {b : Addr} (hb : b.toNat < n * addrStep) :
    ((FlashAgent.reference d m).erasePage n 0#32).wordAt b = some d := by
  rw [wordAt_erasePage_reference hwf, if_pos (by simpa using hb)]

/-- Settles O57: the prefixes of the step's four events, replayed on flash. -/
theorem resetWindowErasesVector : Obligations.ResetWindowErasesVector := by
  intro s d m rest hlegal hmode hphase hp hrx hi hcap hc hk hboot hf hwf
  have hes := stepEvents_erasePage_zero ⟨hlegal, hmode, hphase⟩ hp hrx hi hcap hc hk hboot
  have herased : (s.resetWithin 3).flash = (FlashAgent.reference d m).erasePage s.cfg.pageSize 0#32 := by
    rw [resetWithin_flash, hes, ← hf]; rfl
  have hwf' : (FlashAgent.reference d m).wf = true := hf ▸ hwf
  refine ⟨hes, fun k hk2 => ?_, fun hpage => ?_, fun hpage => ?_, fun k hk4 => ?_⟩
  · rw [resetWithin_flash, hes]
    match k, hk2 with
    | 0, _ | 1, _ | 2, _ => rfl
  · rw [herased]
    exact FlashAgent.wordAt_erasePage_zero hwf' (Nat.mul_pos hpage Nat.two_pos)
  · rw [herased]
    exact FlashAgent.wordAt_erasePage_zero hwf' (show 2 < s.cfg.pageSize * 2 by omega)
  · have hrewritten : (s.resetWithin k).flash =
        (s.resetWithin 3).flash.writeWords 0#32 [s.cfg.jump0, s.cfg.jump1] := by
      rw [resetWithin_flash, resetWithin_flash, hes, List.take_of_length_le hk4]; rfl
    have hpair := FlashAgent.wordAt_writeWords_pair_zero
      (FlashAgent.wf_erasePage hwf' s.cfg.pageSize 0#32) s.cfg.jump0 s.cfg.jump1
    rw [hrewritten, herased]
    exact ⟨hpair 0#32, hpair 2#32⟩

end Sys2Proof.Machine
